-- ==== Sys2Proof/Word.lean ====
section
/-! DEFINITION. The value types of the computour CORE (00_scope R7, R9, R10). -/

namespace Sys2Proof

/-- `u8`: the addressable unit of program memory, an opcode, an operand byte (00_scope R7). -/
abbrev Byte := BitVec 8

/-- `u16`: LOAD's immediate (00_scope R7, `IMMW`). -/
abbrev Half := BitVec 16

/-- A 32-bit vector: a general register read as `i32` (`toInt`), or a `u32` (`toNat`)
(00_scope R7 `XLEN`, `REMW`; R10). -/
abbrev Word := BitVec 32

/-- The index of a general register that `RegIdx` has passed: 0 to 31 (00_scope R7 `NREGS`, R11). -/
abbrev Reg := Fin 32

end Sys2Proof
end

