-- ==== Sys2Proof/Config.lean ====
section
/-! DEFINITION. What an implementation of the CORE fixes (00_scope R8) and the one value the spec leaves
open after every fault (60_exceptions R208, 93 U6). The values this machine takes for the parameters stand in
Sys2Proof/Machine/Params.lean. -/

namespace Sys2Proof

/-- `OVERFLOW_POLICY` of ADD, SUB, MUL (00_scope R8; 92 D4; 93 U1: "the other value is `fault`"). -/
inductive OverflowPolicy where
  /-- The exact result modulo `2^32`. -/
  | wrap
  /-- A result outside `-2^31 .. 2^31 - 1` stops the machine (the spec names no fault kind for it). -/
  | fault
  deriving DecidableEq, Repr

/-- `DIV_ROUNDING` (00_scope R8; 92 D5; 93 U4). `floor` is no value the spec names: PRESUMED, from the
common conventions for `/`, and not this machine's value (notes/assumptions/9.md). -/
inductive DivRounding where
  /-- The quotient is rounded toward zero. -/
  | truncate
  /-- The quotient is rounded down. -/
  | floor
  deriving DecidableEq, Repr

/-- `DIV_OVERFLOW_POLICY`, for `-2^31 / -1` (00_scope R8; 92 D6; 60_exceptions R205). -/
inductive DivOverflowPolicy where
  /-- Raise `DivideOverflow`. -/
  | fault
  /-- Quotient `-2^31`, remainder 0. -/
  | wrap
  deriving DecidableEq, Repr

/-- `JMPB_UNDERFLOW_POLICY`, for an offset above `pc0 + 2` (00_scope R8; 92 D9; 43_jumps R168). -/
inductive JmpbUnderflowPolicy where
  /-- Raise `PcUnderflow`. -/
  | fault
  /-- Subtract modulo `2^32`. -/
  | wrap
  deriving DecidableEq, Repr

/-- The parameters the source leaves open, each with the value the spec takes as default (00_scope R8).
`PROGRAM_LEN` is a field of State, bounded by `maxProgramLen`. -/
structure Params where
  /-- `PCW`, the width of `pc` in bits (92 D1). `Machine.Addr` takes it. -/
  pcWidth : Nat := 32
  /-- The bound on `PROGRAM_LEN` (92 D2; 20_memory R54). -/
  maxProgramLen : Nat := 2 ^ 31
  /-- `RESET_REMAINDER` (92 D3). -/
  resetRemainder : Word := 0
  /-- `RESET_EQUAL_FLAG` (92 D3). -/
  resetEqualFlag : Bool := false
  /-- `OVERFLOW_POLICY` (92 D4). -/
  overflow : OverflowPolicy := .wrap
  /-- `DIV_ROUNDING` (92 D5). -/
  divRounding : DivRounding := .truncate
  /-- `DIV_OVERFLOW_POLICY` (92 D6). -/
  divOverflow : DivOverflowPolicy := .fault
  /-- `JEQ_NOT_TAKEN_LEN` (92 D7). -/
  jeqNotTakenLen : Nat := 4
  /-- `JMPB_UNDERFLOW_POLICY` (92 D9). -/
  jmpbUnderflow : JmpbUnderflowPolicy := .fault
  deriving DecidableEq, Repr

/-- FREE VALUE: what a `pc` of `w` bits holds after the `n`-th fault (60_exceptions R208: "pc : unspecified (any
32-bit value; ...)"; 93 U6). No body: nothing can be proved of it. DESIGN CHOICE in its form
(notes/assumptions/5.md). -/
opaque Config.freePc (w n : Nat) : BitVec w

end Sys2Proof
end

