-- ==== Sys2Proof/Machine/Params.lean ====
section
/-! DEFINITION. The values this machine takes for the parameters the source leaves open (00_scope R8), and the type of
an address, whose width is one of them. -/

namespace Sys2Proof.Machine

/-- Every parameter at the value the spec takes (00_scope R8, 92_eei_decisions D1 to D7 and D9). Reducible, so that the
width of `pc` computes in the type of an address. -/
abbrev params : Params := {}

/-- A byte address, the content of `pc`: `PCW` bits (00_scope R8; 10_state R25). -/
abbrev Addr : Type := BitVec params.pcWidth

end Sys2Proof.Machine
end

