-- ==== Sys2Proof/Syntax.lean ====
section
/-! DEFINITION. The 12 operations and the instructions of the computour bytecode (00_scope R2; 30_encoding R83,
R84). An operand is kept as the byte the CORE fetches: a register operand is the whole byte, 0 to 255, because the
check that it is at most 31 is part of executing the instruction (30_encoding R88), not of decoding it (R85). -/

namespace Sys2Proof

/-- The decoded operation (30_encoding R84, R85), in the order of its numeric values (R86). -/
inductive Operation where
  | hlt | load | add | sub | mul | div | jmp | jmpf | jmpb | eq | jeq | igl
  deriving DecidableEq, Repr

/-- An instruction with its operand bytes, in the order they are fetched (30_encoding R83). -/
inductive Instr where
  /-- Format N, opcode 0: halt (40 R116). -/
  | hlt
  /-- Format I, opcode 1: load the 16-bit immediate `imm` into `x[rd]` (41 R131). -/
  | load (rd : Byte) (imm : Half)
  /-- Format A, opcode 2: `x[rd] <- x[rs1] + x[rs2]` (42 R141). -/
  | add (rs1 rs2 rd : Byte)
  /-- Format A, opcode 3: `x[rd] <- x[rs1] - x[rs2]` (42 R142). -/
  | sub (rs1 rs2 rd : Byte)
  /-- Format A, opcode 4: `x[rd] <- x[rs1] * x[rs2]` (42 R143). -/
  | mul (rs1 rs2 rd : Byte)
  /-- Format A, opcode 5: `x[rd] <- x[rs1] / x[rs2]`, with `remainder` (42 R144). -/
  | div (rs1 rs2 rd : Byte)
  /-- Format J, opcode 6: jump to the address in `x[rs]` (43 R161). -/
  | jmp (rs : Byte)
  /-- Format O, opcode 7: jump `off` bytes forward (43 R164). -/
  | jmpf (off : Byte)
  /-- Format O, opcode 8: jump `off` bytes backward (43 R167). -/
  | jmpb (off : Byte)
  /-- Format C, opcode 9: compare `x[rs1]` and `x[rs2]`; `pad` is fetched and ignored (44 R181). -/
  | eq (rs1 rs2 pad : Byte)
  /-- Format J, opcode 10: jump to the address in `x[rs]` if `equal_flag` (44 R184). -/
  | jeq (rs : Byte)
  /-- Format N, every other opcode byte: stop (40 R117). The byte is kept: the 245 values behave alike (30 R92). -/
  | igl (opcode : Byte)
  deriving DecidableEq, Repr

/-- The operation an instruction performs. -/
def Instr.operation : Instr → Operation
  | .hlt => .hlt
  | .load _ _ => .load
  | .add _ _ _ => .add
  | .sub _ _ _ => .sub
  | .mul _ _ _ => .mul
  | .div _ _ _ => .div
  | .jmp _ => .jmp
  | .jmpf _ => .jmpf
  | .jmpb _ => .jmpb
  | .eq _ _ _ => .eq
  | .jeq _ => .jeq
  | .igl _ => .igl

end Sys2Proof
end

