-- ==== Sys2Proof/Machine/State.lean ====
section
/-! DEFINITION. The state of the computour CORE with its program memory (10_state R20), as plain data, the
reasons a transition of the model can end in no next state, and the state after reset (70 R240). -/

namespace Sys2Proof.Machine

/-- `run_state` (10_state R33). -/
inductive RunState where
  /-- Steps are taken. -/
  | running
  /-- Stopped by HLT or IGL; left only by reset. -/
  | halted
  /-- Stopped by a fault; left only by reset. -/
  | faulted
  deriving DecidableEq, Repr

/-- `fault_kind`: the five fault kinds (10_state R34; 60_exceptions R201). -/
inductive FaultKind where
  /-- A byte fetch with `pc >= PROGRAM_LEN`. -/
  | pcOverrun
  /-- A register-index operand byte of 32 to 255. -/
  | regIndexOutOfRange
  /-- DIV with a divisor of 0. -/
  | divideByZero
  /-- DIV of `-2^31` by `-1`. -/
  | divideOverflow
  /-- JMPB with an offset above `pc0 + 2`. -/
  | pcUnderflow
  deriving DecidableEq, Repr

/-- Why a step has no next state. The five faults of the hardware are NOT here: each is a next state in
`faulted`, as 60_exceptions R208 describes it (notes/assumptions/6.md). -/
inductive Fault where
  /-- Raised by ADD, SUB, MUL on a result outside `i32` when `params.overflow` is `fault`, a value this machine does
  not take (93 U1 gives no fault kind for it). SAFE: the model stops where a hardware of that policy would crash. -/
  | arithmeticOverflow
  deriving DecidableEq, Repr

/-- Why the model gives a request no meaning. -/
inductive Refusal where
  /-- Answered by exec for an instruction that has no meaning yet. SAFE: the model says nothing about it. -/
  | notModelled (mnemonic : String)
  /-- Answered by `load_program` for more than `2^31` bytes (20_memory R54; 93 U18 "refuse"). SAFE. -/
  | programTooLong
  /-- Answered by `load_program` after the first step and by `poke_reg` outside RUNNING, which the spec gives no
  meaning (93 U15, U16 "refuse"). SAFE for the claims of this model; a host that does it has no move here. -/
  | hostMoveWithoutMeaning
  deriving DecidableEq, Repr

/-- The whole state (10_state R20), and one field of the model's own, `freeCount`. -/
structure State where
  /-- `x[0]` .. `x[31]` (10_state R21). -/
  regs : Vector Word 32
  /-- `pc`, between steps the address of the next opcode byte (10_state R25). -/
  pc : Addr
  /-- `remainder`, written by DIV only (10_state R30). -/
  remainder : Word
  /-- `equal_flag`, written by EQ only (10_state R31). -/
  equalFlag : Bool
  /-- `run_state` (10_state R33). -/
  runState : RunState
  /-- `fault_kind`, meaningful only in `faulted` (10_state R34). -/
  faultKind : Option FaultKind
  /-- `fault_info`, meaningful only in `faulted` (10_state R34). -/
  faultInfo : Word
  /-- The bytes of program memory that are not 0, addresses strictly rising (20_memory R50; notes/assumptions/2.md). -/
  mem : List Host.Cell
  /-- `PROGRAM_LEN`: addresses `0 .. progLen - 1` exist (20_memory R50, R54). -/
  progLen : Nat
  /-- THE MODEL'S OWN: how many free values `Config.freePc` has given (notes/assumptions/5.md). -/
  freeCount : Nat
  deriving DecidableEq, Repr

/-- The machine right after reset (10_state R37, R38; 70 R240). `faultKind` and `faultInfo` are 10_state R20's
"none / 0" (notes/assumptions/4.md); `freeCount` is a DESIGN CHOICE (notes/assumptions/5.md). -/
def State.reset : State where
  regs := Vector.replicate 32 0
  pc := 0
  remainder := params.resetRemainder
  equalFlag := params.resetEqualFlag
  runState := .running
  faultKind := none
  faultInfo := 0
  mem := []
  progLen := 0
  freeCount := 0

end Sys2Proof.Machine
end

