-- ==== Sys2Proof/Machine/Ops.lean ====
section
/-! DEFINITION. The named operations over the state: program memory, registers, `pc`, the stop of HLT and IGL
(40 R116, R117), and raising a fault (60_exceptions R208), which every fault of the CORE goes through. -/

namespace Sys2Proof.Machine

/-- What a transition answers. -/
abbrev Result := Host.Outcome State Fault Refusal

/-! ## Program memory: a canonical list of (address, byte) -/

/-- What an address below `PROGRAM_LEN` that is not listed holds (notes/assumptions/2.md). -/
def memDefault : Byte := 0

/-- The byte at an address, listed or not. -/
def memRead (m : List Host.Cell) (a : Nat) : Byte :=
  match m with
  | [] => memDefault
  | c :: rest => if c.1 = a then c.2 else memRead rest a

/-- Put a byte into a list of cells whose addresses rise, dropping an entry that would read as the default. -/
def memInsert (a : Nat) (b : Byte) (m : List Host.Cell) : List Host.Cell :=
  match m with
  | [] => if b = memDefault then [] else [(a, b)]
  | c :: rest =>
    if c.1 < a then c :: memInsert a b rest
    else if c.1 = a then (if b = memDefault then rest else (a, b) :: rest)
    else if b = memDefault then c :: rest else (a, b) :: c :: rest

/-- Every listed address is at least `lo`, addresses strictly rise, and no entry is the default. -/
def memSorted (lo : Nat) (m : List Host.Cell) : Bool :=
  match m with
  | [] => true
  | c :: rest => decide (lo ≤ c.1) && (c.2 != memDefault) && memSorted (c.1 + 1) rest

/-- The canonical form: equal memories are equal lists. -/
def Memory.wf (m : List Host.Cell) : Bool := memSorted 0 m

/-- The cells of a list of bytes standing at `a`, `a + 1`, ... -/
def memOfBytes (a : Nat) (bs : List Byte) : List Host.Cell :=
  match bs with
  | [] => []
  | b :: rest => if b = memDefault then memOfBytes (a + 1) rest else (a, b) :: memOfBytes (a + 1) rest

/-- `program[a]`, or none where `a >= PROGRAM_LEN` (20_memory R50). -/
def State.byteAt? (s : State) (a : Nat) : Option Byte :=
  if a < s.progLen then some (memRead s.mem a) else none

/-- Program memory holding exactly these bytes from address 0 (70 R247). -/
def State.setProgram (s : State) (bytes : List Byte) : State :=
  { s with mem := memOfBytes 0 bytes, progLen := bytes.length }

/-- Write the byte at `a`, making program memory long enough to hold it. The CORE never does this (20_memory R52): it
stands for what a host loads (`State.withFetchWord`). -/
def State.placeByte (s : State) (a : Nat) (b : Byte) : State :=
  { s with mem := memInsert a b s.mem, progLen := max s.progLen (a + 1) }

/-- Write consecutive bytes from address `a`, which wraps as `pc` does. -/
def State.placeBytes (s : State) (a : Addr) (bs : List Byte) : State :=
  match bs with
  | [] => s
  | b :: rest => (s.placeByte a.toNat b).placeBytes (a + 1) rest

/-! ## Registers and pc -/

/-- `x[i]` (00_scope R11; 10_state R22: no register is hardwired). -/
def State.reg (s : State) (i : Reg) : Word := s.regs[i]

/-- `x[i] <- v` (00_scope R11). -/
def State.setReg (s : State) (i : Reg) (v : Word) : State := { s with regs := s.regs.set i v }

/-- `pc <- t`. A target is not checked when it is written (10_state R28). -/
def State.setPc (s : State) (t : Addr) : State := { s with pc := t }

/-- `pc` after an instruction of `n` bytes that does not jump: `pc0 + n` (10_state R26). -/
def State.advance (s : State) (n : Nat) : State := s.setPc (s.pc + BitVec.ofNat params.pcWidth n)

/-- `remainder <- v` (10_state R30). -/
def State.setRemainder (s : State) (v : Word) : State := { s with remainder := v }

/-- `equal_flag <- b` (10_state R31). -/
def State.setEqualFlag (s : State) (b : Bool) : State := { s with equalFlag := b }

/-- `run_state <- r` (10_state R33). -/
def State.setRunState (s : State) (r : RunState) : State := { s with runState := r }

/-! ## Stopping and faulting -/

/-- `stop` at `pc0 + 1`: what HLT and IGL do (00_scope R11; 40 R116, R117). -/
def State.stop (s : State) : State := (s.advance 1).setRunState .halted

/-- The state a fault leaves (60_exceptions R208): registers, `remainder` and `equal_flag` as they were, `pc` a free
value. -/
def State.raised (s : State) (kind : FaultKind) (info : Word) : State :=
  { s with
    runState := .faulted
    faultKind := some kind
    faultInfo := info
    pc := Config.freePc params.pcWidth s.freeCount
    freeCount := s.freeCount + 1 }

/-- `raise K(info)` (00_scope R11; 60_exceptions R208): every fault of the CORE goes through here. `s` is the state at
the start of the step. There is no return from it (R211). -/
def raise (kind : FaultKind) (info : Word) (s : State) : Result := .next (s.raised kind info)

/-- An address as the `u32` that `fault_info` holds (10_state R34; 60_exceptions R201). -/
def addrInfo (a : Addr) : Word := a.setWidth 32

/-- The numeric code of a fault kind (60_exceptions R201). -/
def FaultKind.code : FaultKind → Nat
  | .pcOverrun => 1
  | .regIndexOutOfRange => 2
  | .divideByZero => 3
  | .divideOverflow => 4
  | .pcUnderflow => 5

end Sys2Proof.Machine
end

