-- ==== Sys2Proof/Machine/Flags.lean ====
section
/-! DEFINITION. The ALU: the exact result narrowed to 32 bits (42 R147), division with its remainder (42 R144,
R146), and the comparison that sets `equal_flag` (44 R181). There is no carry, overflow, zero or sign flag
(10_state R32). -/

namespace Sys2Proof.Machine

/-- `wrap32(n)`: the `i32` whose bits are `n mod 2^32` (00_scope R11). -/
def wrap32 (n : Int) : Word := BitVec.ofInt 32 n

/-- The least `i32`. -/
def int32Min : Int := -2 ^ 31

/-- The greatest `i32`. -/
def int32Max : Int := 2 ^ 31 - 1

/-- The result of ADD, SUB or MUL from its exact value, under an overflow policy (42 R147; 92 D4). -/
def narrow (p : OverflowPolicy) (n : Int) : Option Word :=
  match p with
  | .wrap => some (wrap32 n)
  | .fault => if int32Min ≤ n ∧ n ≤ int32Max then some (wrap32 n) else none

/-- The quotient under a rounding rule; with `truncate` it is `tdiv` (00_scope R11; 42 R144; 92 D5). -/
def quotient (r : DivRounding) (a b : Int) : Int :=
  match r with
  | .truncate => Int.tdiv a b
  | .floor => Int.fdiv a b

/-- `a - b * quotient`; with `truncate` it is `trem` (00_scope R11; 42 R146). -/
def remainderOf (r : DivRounding) (a b : Int) : Int := a - b * quotient r a b

/-- What a division comes to. -/
inductive DivOutcome where
  /-- The quotient, and the remainder's bit pattern. -/
  | done (q r : Word)
  /-- The divisor is 0. -/
  | byZero
  /-- `-2^31 / -1` under the policy `fault`. -/
  | overflow
  deriving DecidableEq, Repr

/-- DIV of `a` by `b`, both signed (42 R144, R146, R148; 60 R204, R205). -/
def divide (p : Params) (a b : Word) : DivOutcome :=
  if b.toInt = 0 then .byZero
  else if a.toInt = int32Min ∧ b.toInt = -1 ∧ p.divOverflow = .fault then .overflow
  else .done (wrap32 (quotient p.divRounding a.toInt b.toInt)) (wrap32 (remainderOf p.divRounding a.toInt b.toInt))

/-- The value of `equal_flag`: all 32 bits compared (44 R181). -/
def equalBits (a b : Word) : Bool := a == b

end Sys2Proof.Machine
end

