-- ==== Sys2Proof/WellFormed.lean ====
section
/-! DEFINITION. When an instruction is well formed: every register byte names a register (30_encoding R88) and
IGL stands for an opcode byte that has no operation of its own (30_encoding R84, R92). Every value of `imm`, `off`
and `pad` is legal (R92). -/

namespace Sys2Proof

/-- A register-index byte is legal when it is 0 to 31 (30_encoding R88). -/
def regByteOk (b : Byte) : Bool := b.toNat ≤ 31

/-- An opcode byte that decodes to IGL: 11 to 255 (30_encoding R84). -/
def iglByteOk (b : Byte) : Bool := 11 ≤ b.toNat

/-- The legal instructions. An instruction with an illegal register byte still executes: it raises
`RegIndexOutOfRange` (30_encoding R88). -/
def Instr.wf : Instr → Bool
  | .hlt => true
  | .load rd _ => regByteOk rd
  | .add rs1 rs2 rd => regByteOk rs1 && regByteOk rs2 && regByteOk rd
  | .sub rs1 rs2 rd => regByteOk rs1 && regByteOk rs2 && regByteOk rd
  | .mul rs1 rs2 rd => regByteOk rs1 && regByteOk rs2 && regByteOk rd
  | .div rs1 rs2 rd => regByteOk rs1 && regByteOk rs2 && regByteOk rd
  | .jmp rs => regByteOk rs
  | .jmpf _ => true
  | .jmpb _ => true
  | .eq rs1 rs2 _ => regByteOk rs1 && regByteOk rs2
  | .jeq rs => regByteOk rs
  | .igl op => iglByteOk op

end Sys2Proof
end

