-- ==== Sys2Proof/Decode.lean ====
section
/-! DEFINITION. Decoding and encoding (30_encoding): the opcode map, the list-of-bytes decoder, the encoder, the
slot word of the opcode table, the table's masked rows, and the spec's assembly notation. -/

namespace Sys2Proof

/-! ## The opcode byte -/

/-- `Decode(b0)` (30_encoding R85): total, every byte above 10 is IGL. -/
def decodeOp (b0 : Byte) : Operation :=
  match b0.toNat with
  | 0 => .hlt
  | 1 => .load
  | 2 => .add
  | 3 => .sub
  | 4 => .mul
  | 5 => .div
  | 6 => .jmp
  | 7 => .jmpf
  | 8 => .jmpb
  | 9 => .eq
  | 10 => .jeq
  | _ => .igl

/-- The numeric value of an operation, its place in the enumeration (30_encoding R86). -/
def encodeOp : Operation → Byte
  | .hlt => 0
  | .load => 1
  | .add => 2
  | .sub => 3
  | .mul => 4
  | .div => 5
  | .jmp => 6
  | .jmpf => 7
  | .jmpb => 8
  | .eq => 9
  | .jeq => 10
  | .igl => 11

/-- How many bytes the operation consumes, opcode included (30_encoding R83 "fetched", R87). -/
def bytesFetched : Operation → Nat
  | .hlt => 1
  | .load => 4
  | .add => 4
  | .sub => 4
  | .mul => 4
  | .div => 4
  | .jmp => 2
  | .jmpf => 2
  | .jmpb => 2
  | .eq => 4
  | .jeq => 2
  | .igl => 1

/-- What kind of operand a fetched byte is, for the check `RegIdx` makes (30_encoding R83, R88; 60 R203). -/
inductive OperandKind where
  /-- A register index: checked to be at most 31 as soon as it is fetched. -/
  | regIdx
  /-- A byte of an immediate, an offset or EQ's padding: never checked (30_encoding R90, R91). -/
  | raw
  deriving DecidableEq, Repr

/-- The operand bytes of an operation in the order they are fetched (30_encoding R83). -/
def operandKinds : Operation → List OperandKind
  | .hlt => []
  | .load => [.regIdx, .raw, .raw]
  | .add => [.regIdx, .regIdx, .regIdx]
  | .sub => [.regIdx, .regIdx, .regIdx]
  | .mul => [.regIdx, .regIdx, .regIdx]
  | .div => [.regIdx, .regIdx, .regIdx]
  | .jmp => [.regIdx]
  | .jmpf => [.raw]
  | .jmpb => [.raw]
  | .eq => [.regIdx, .regIdx, .raw]
  | .jeq => [.regIdx]
  | .igl => []

/-! ## Instructions from bytes -/

/-- Why a list of bytes is not an instruction. No byte value is ever the reason (30_encoding R85). -/
inductive DecodeReject where
  /-- There is no opcode byte. -/
  | noBytes
  /-- Only `got` of the operation's operand bytes are there. -/
  | truncated (op : Operation) (got : Nat)
  deriving DecidableEq, Repr

/-- What the decoder answers. -/
inductive Decoded where
  /-- An instruction and the bytes after it. -/
  | instr (i : Instr) (rest : List Byte)
  /-- No instruction, and why. -/
  | rejected (r : DecodeReject)
  deriving DecidableEq, Repr

/-- The 16-bit immediate, high byte first: `256 * hi + lo` (20_memory R56, R58; 30_encoding R89). -/
def immOf (hi lo : Byte) : Half := BitVec.ofNat 16 (256 * hi.toNat + lo.toNat)

/-- The operand bytes after an opcode byte `b0` of operation `op` (30_encoding R83). -/
def decodeOperands (op : Operation) (b0 : Byte) (bs : List Byte) : Decoded :=
  match op with
  | .hlt => .instr .hlt bs
  | .igl => .instr (.igl b0) bs
  | .load => match bs with
    | rd :: hi :: lo :: rest => .instr (.load rd (immOf hi lo)) rest
    | _ => .rejected (.truncated op bs.length)
  | .add => match bs with
    | rs1 :: rs2 :: rd :: rest => .instr (.add rs1 rs2 rd) rest
    | _ => .rejected (.truncated op bs.length)
  | .sub => match bs with
    | rs1 :: rs2 :: rd :: rest => .instr (.sub rs1 rs2 rd) rest
    | _ => .rejected (.truncated op bs.length)
  | .mul => match bs with
    | rs1 :: rs2 :: rd :: rest => .instr (.mul rs1 rs2 rd) rest
    | _ => .rejected (.truncated op bs.length)
  | .div => match bs with
    | rs1 :: rs2 :: rd :: rest => .instr (.div rs1 rs2 rd) rest
    | _ => .rejected (.truncated op bs.length)
  | .jmp => match bs with
    | rs :: rest => .instr (.jmp rs) rest
    | _ => .rejected (.truncated op bs.length)
  | .jmpf => match bs with
    | off :: rest => .instr (.jmpf off) rest
    | _ => .rejected (.truncated op bs.length)
  | .jmpb => match bs with
    | off :: rest => .instr (.jmpb off) rest
    | _ => .rejected (.truncated op bs.length)
  | .eq => match bs with
    | rs1 :: rs2 :: pad :: rest => .instr (.eq rs1 rs2 pad) rest
    | _ => .rejected (.truncated op bs.length)
  | .jeq => match bs with
    | rs :: rest => .instr (.jeq rs) rest
    | _ => .rejected (.truncated op bs.length)

/-- The decoder: the instruction at the head of a list of bytes, opcode byte first (30_encoding R80). -/
def decode : List Byte → Decoded
  | [] => .rejected .noBytes
  | b0 :: bs => decodeOperands (decodeOp b0) b0 bs

/-! ## Bytes from instructions -/

/-- The operand bytes of an instruction, in the order they are fetched (30_encoding R83). -/
def operandBytes : Instr → List Byte
  | .hlt => []
  | .load rd imm => [rd, imm.extractLsb' 8 8, imm.extractLsb' 0 8]
  | .add rs1 rs2 rd => [rs1, rs2, rd]
  | .sub rs1 rs2 rd => [rs1, rs2, rd]
  | .mul rs1 rs2 rd => [rs1, rs2, rd]
  | .div rs1 rs2 rd => [rs1, rs2, rd]
  | .jmp rs => [rs]
  | .jmpf off => [off]
  | .jmpb off => [off]
  | .eq rs1 rs2 pad => [rs1, rs2, pad]
  | .jeq rs => [rs]
  | .igl _ => []

/-- The opcode byte of an instruction (30_encoding R84); IGL keeps its own. -/
def opcodeByte : Instr → Byte
  | .igl op => op
  | i => encodeOp i.operation

/-- The bytes the CORE consumes for an instruction (30_encoding R83). -/
def encode (i : Instr) : List Byte := opcodeByte i :: operandBytes i

/-- The bytes written into one 4-byte slot, padded with zeros (30_encoding R81, R100). -/
def encodeSlot (i : Instr) : List Byte := encode i ++ List.replicate (4 - (encode i).length) 0

/-! ## The slot word and the opcode table -/

/-- The `k`-th byte, from the most significant, of the `n` bytes of `w`. -/
def byteFromTop (n w k : Nat) : Byte := BitVec.ofNat 8 (w >>> (8 * (n - 1 - k)))

/-- The bytes of an instruction whose table word is `w`. The table's slot word has the opcode byte in its most
significant byte, and that byte lies at the lowest address (30_encoding R82); a word shorter than a slot is
followed by zero bytes (notes/assumptions/11.md). -/
def bytesOfTableWord (nbits w : Nat) : List Byte :=
  (List.range (nbits / 8)).map (byteFromTop (nbits / 8) w) ++ List.replicate (4 - nbits / 8) 0

/-- The instruction the decoder reads from a word of spec/opcode_table.json. -/
def decodeTableWord (nbits w : Nat) : Option Instr :=
  match decode (bytesOfTableWord nbits w) with
  | .instr i _ => some i
  | .rejected _ => none

/-- The slot word `W = b0 ++ b1 ++ b2 ++ b3` (30_encoding R82). -/
def slotWord (b0 b1 b2 b3 : Byte) : BitVec 32 :=
  b0.setWidth 32 <<< 24 ||| b1.setWidth 32 <<< 16 ||| b2.setWidth 32 <<< 8 ||| b3.setWidth 32

/-- A row of the machine-readable table: it applies when `W & mask = pattern` (30_encoding R94). -/
structure OpcodeRow where
  op : Operation
  pattern : BitVec 32
  mask : BitVec 32
  deriving DecidableEq, Repr

/-- The 17 rows of spec/opcode_table.json, in its order (30_encoding R94). -/
def opcodeTable : List OpcodeRow :=
  [⟨.hlt,  0x00000000, 0xFF000000⟩,
   ⟨.load, 0x01000000, 0xFF000000⟩,
   ⟨.add,  0x02000000, 0xFF000000⟩,
   ⟨.sub,  0x03000000, 0xFF000000⟩,
   ⟨.mul,  0x04000000, 0xFF000000⟩,
   ⟨.div,  0x05000000, 0xFF000000⟩,
   ⟨.jmp,  0x06000000, 0xFF000000⟩,
   ⟨.jmpf, 0x07000000, 0xFF000000⟩,
   ⟨.jmpb, 0x08000000, 0xFF000000⟩,
   ⟨.eq,   0x09000000, 0xFF000000⟩,
   ⟨.jeq,  0x0A000000, 0xFF000000⟩,
   ⟨.igl,  0x0B000000, 0xFF000000⟩,
   ⟨.igl,  0x0C000000, 0xFC000000⟩,
   ⟨.igl,  0x10000000, 0xF0000000⟩,
   ⟨.igl,  0x20000000, 0xE0000000⟩,
   ⟨.igl,  0x40000000, 0xC0000000⟩,
   ⟨.igl,  0x80000000, 0x80000000⟩]

/-- Whether a row applies to a slot word (30_encoding R94). -/
def rowApplies (w : BitVec 32) (row : OpcodeRow) : Bool := w &&& row.mask == row.pattern

/-! ## Assembly notation (30_encoding R100; D19: the spec's own, not a property of the hardware) -/

/-- `$n`. -/
def asmReg (b : Byte) : String := "$" ++ toString b.toNat

/-- `#n`. -/
def asmLit {w : Nat} (v : BitVec w) : String := "#" ++ toString v.toNat

/-- An instruction in the spec's notation, operands in the order of their bytes. -/
def asm : Instr → String
  | .hlt => "HLT"
  | .load rd imm => "LOAD " ++ asmReg rd ++ " " ++ asmLit imm
  | .add rs1 rs2 rd => "ADD " ++ asmReg rs1 ++ " " ++ asmReg rs2 ++ " " ++ asmReg rd
  | .sub rs1 rs2 rd => "SUB " ++ asmReg rs1 ++ " " ++ asmReg rs2 ++ " " ++ asmReg rd
  | .mul rs1 rs2 rd => "MUL " ++ asmReg rs1 ++ " " ++ asmReg rs2 ++ " " ++ asmReg rd
  | .div rs1 rs2 rd => "DIV " ++ asmReg rs1 ++ " " ++ asmReg rs2 ++ " " ++ asmReg rd
  | .jmp rs => "JMP " ++ asmReg rs
  | .jmpf off => "JMPF " ++ asmLit off
  | .jmpb off => "JMPB " ++ asmLit off
  | .eq rs1 rs2 _ => "EQ " ++ asmReg rs1 ++ " " ++ asmReg rs2
  | .jeq rs => "JEQ " ++ asmReg rs
  | .igl op => ".byte " ++ toString op.toNat

end Sys2Proof
end

