-- ==== Sys2Proof/Machine/Operands.lean ====
section
/-! DEFINITION. The operand forms: a register index (30_encoding R88), LOAD's immediate (R89), a jump offset (R90),
a register as a jump target (43 R162), and the operand sequence of format A (42 R140). -/

namespace Sys2Proof.Machine

/-- A `u8` as a `u32`, the same unsigned value (00_scope R11 `zext_N`). -/
def zextByte (b : Byte) : Word := b.setWidth 32

/-- A `u8` as an address: the same unsigned value (30_encoding R90). -/
def zextAddr (b : Byte) : Addr := b.setWidth params.pcWidth

/-- LOAD's immediate as an `i32` of 0 to 65535: zero-extended (30_encoding R89; 90 C2). -/
def zextImm (imm : Half) : Word := imm.setWidth 32

/-- `RegIdx(b)`: the whole byte is the index, 0 to 31; it is not reduced (30_encoding R88). -/
def regIdx (b : Byte) : Option Reg :=
  if h : b.toNat < 32 then some ⟨b.toNat, h⟩ else none

/-- Go on with the register a byte names, or raise `RegIndexOutOfRange(b)` (30_encoding R88; 60 R203). -/
def withReg (b : Byte) (s : State) (k : Reg → Result) : Result :=
  match regIdx b with
  | some r => k r
  | none => raise .regIndexOutOfRange (zextByte b) s

/-- The operands of format A: three indices checked in the order of their bytes, then both sources read, before any
write (42 R140, R145; 60 R210). -/
def withOperandsA (rs1 rs2 rd : Byte) (s : State) (k : Word → Word → Reg → Result) : Result :=
  withReg rs1 s fun s1 => withReg rs2 s fun s2 => withReg rd s fun d => k (s.reg s1) (s.reg s2) d

/-- The `pc` from which a relative jump counts: just after its offset byte (30_encoding R90). -/
def afterOffset (s : State) : Addr := s.pc + 2

/-- The register read as an unsigned address: all its 32 bits, since `pc` is as wide (43 R162; 92 D10). -/
def jumpTarget (s : State) (r : Reg) : Addr := (s.reg r).setWidth params.pcWidth

end Sys2Proof.Machine
end

