-- ==== Sys2Proof/Machine/Arith.lean ====
section
/-! DEFINITION. ADD, SUB, MUL, DIV (42_arithmetic). -/

namespace Sys2Proof.Machine

/-- Write the result of ADD, SUB or MUL, given exactly, into `x[d]` and go to `pc0 + 4` (42 R147). -/
def storeExact (p : Params) (n : Int) (d : Reg) (s : State) : Result :=
  match narrow p.overflow n with
  | some v => .next ((s.setReg d v).advance 4)
  | none => .fault .arithmeticOverflow

/-- ADD under given parameters (42 R141). -/
def addWith (p : Params) (rs1 rs2 rd : Byte) (s : State) : Result :=
  withOperandsA rs1 rs2 rd s fun a b d => storeExact p (a.toInt + b.toInt) d s

/-- SUB under given parameters: first operand minus second (42 R142). -/
def subWith (p : Params) (rs1 rs2 rd : Byte) (s : State) : Result :=
  withOperandsA rs1 rs2 rd s fun a b d => storeExact p (a.toInt - b.toInt) d s

/-- MUL under given parameters (42 R143). -/
def mulWith (p : Params) (rs1 rs2 rd : Byte) (s : State) : Result :=
  withOperandsA rs1 rs2 rd s fun a b d => storeExact p (a.toInt * b.toInt) d s

/-- Write the quotient into `x[d]` and the remainder into `remainder` and go to `pc0 + 4`, or raise the division fault
with `pc0`, writing neither (42 R144, R146; 60 R204, R205). -/
def storeDivision (o : DivOutcome) (d : Reg) (s : State) : Result :=
  match o with
  | .byZero => raise .divideByZero (addrInfo s.pc) s
  | .overflow => raise .divideOverflow (addrInfo s.pc) s
  | .done q r => .next (((s.setReg d q).setRemainder r).advance 4)

/-- DIV under given parameters (42 R144). -/
def divWith (p : Params) (rs1 rs2 rd : Byte) (s : State) : Result :=
  withOperandsA rs1 rs2 rd s fun a b d => storeDivision (divide p a b) d s

/-- ADD (42 R141). -/
def execAdd (rs1 rs2 rd : Byte) (s : State) : Result := addWith params rs1 rs2 rd s

/-- SUB (42 R142). -/
def execSub (rs1 rs2 rd : Byte) (s : State) : Result := subWith params rs1 rs2 rd s

/-- MUL (42 R143). -/
def execMul (rs1 rs2 rd : Byte) (s : State) : Result := mulWith params rs1 rs2 rd s

/-- DIV (42 R144). -/
def execDiv (rs1 rs2 rd : Byte) (s : State) : Result := divWith params rs1 rs2 rd s

end Sys2Proof.Machine
end

