-- ==== Sys2Proof/Machine/Compare.lean ====
section
/-! DEFINITION. EQ and JEQ (44_compare_branch). -/

namespace Sys2Proof.Machine

/-- EQ: `equal_flag <- (x[rs1] = x[rs2])`; the padding byte is not checked and has no effect (44 R181; 30_encoding
R91). -/
def execEq (rs1 rs2 _pad : Byte) (s : State) : Result :=
  withReg rs1 s fun s1 => withReg rs2 s fun s2 =>
    .next ((s.setEqualFlag (equalBits (s.reg s1) (s.reg s2))).advance 4)

/-- JEQ under given parameters: the index is checked taken or not (44 R184, R185; 92 D7, D8). -/
def jeqWith (p : Params) (rs : Byte) (s : State) : Result :=
  withReg rs s fun r =>
    if s.equalFlag then .next (s.setPc (jumpTarget s r)) else .next (s.advance p.jeqNotTakenLen)

/-- JEQ (44 R184). -/
def execJeq (rs : Byte) (s : State) : Result := jeqWith params rs s

end Sys2Proof.Machine
end

