-- ==== Sys2Proof/Machine/Halt.lean ====
section
/-! DEFINITION. HLT and IGL (40_cycle_halt R116, R117). -/

namespace Sys2Proof.Machine

/-- HLT: stop at `pc0 + 1`, nothing else changes (40 R116). -/
def execHlt (s : State) : Result := .next s.stop

/-- IGL: a clean stop, not a fault; the same effect as HLT whatever the opcode byte (40 R117; 30_encoding R92). -/
def execIgl (_opcode : Byte) (s : State) : Result := .next s.stop

end Sys2Proof.Machine
end

