-- ==== Sys2Proof/Machine/Jump.lean ====
section
/-! DEFINITION. JMP, JMPF, JMPB (43_jumps). A jump never faults because of where it goes (43 R160). -/

namespace Sys2Proof.Machine

/-- JMP: `pc <- unsigned(x[rs])` (43 R161, R162). -/
def execJmp (rs : Byte) (s : State) : Result :=
  withReg rs s fun r => .next (s.setPc (jumpTarget s r))

/-- JMPF: `pc <- pc0 + 2 + off` (43 R164). -/
def execJmpf (off : Byte) (s : State) : Result :=
  .next (s.setPc (afterOffset s + zextAddr off))

/-- JMPB under given parameters: `pc <- pc0 + 2 - off`; below 0 it raises `PcUnderflow(pc0)` (43 R167, R168). -/
def jmpbWith (p : Params) (off : Byte) (s : State) : Result :=
  if afterOffset s < zextAddr off ∧ p.jmpbUnderflow = .fault then raise .pcUnderflow (addrInfo s.pc) s
  else .next (s.setPc (afterOffset s - zextAddr off))

/-- JMPB (43 R167). -/
def execJmpb (off : Byte) (s : State) : Result := jmpbWith params off s

end Sys2Proof.Machine
end

