-- ==== Sys2Proof/Machine/Load.lean ====
section
/-! DEFINITION. LOAD (41_load R131). -/

namespace Sys2Proof.Machine

/-- LOAD: all 32 bits of `x[rd]` become the zero-extended immediate (41 R131). -/
def execLoad (rd : Byte) (imm : Half) (s : State) : Result :=
  withReg rd s fun d => .next ((s.setReg d (zextImm imm)).advance 4)

end Sys2Proof.Machine
end

