-- ==== Sys2Proof/Machine/Dispatch.lean ====
section
/-! DEFINITION. The meaning of each instruction, by constructor (40 R110). The state is the one at the start of the
step: its `pc` is the address of the opcode byte, `pc0`. -/

namespace Sys2Proof.Machine

def exec (i : Instr) (s : State) : Host.Outcome State Fault Refusal :=
  match i with
  | .hlt => Sys2Proof.Machine.execHlt s
  | .load rd imm => Sys2Proof.Machine.execLoad rd imm s
  | .add rs1 rs2 rd => Sys2Proof.Machine.execAdd rs1 rs2 rd s
  | .sub rs1 rs2 rd => Sys2Proof.Machine.execSub rs1 rs2 rd s
  | .mul rs1 rs2 rd => Sys2Proof.Machine.execMul rs1 rs2 rd s
  | .div rs1 rs2 rd => Sys2Proof.Machine.execDiv rs1 rs2 rd s
  | .jmp rs => Sys2Proof.Machine.execJmp rs s
  | .jmpf off => Sys2Proof.Machine.execJmpf off s
  | .jmpb off => Sys2Proof.Machine.execJmpb off s
  | .eq rs1 rs2 pad => Sys2Proof.Machine.execEq rs1 rs2 pad s
  | .jeq rs => Sys2Proof.Machine.execJeq rs s
  | .igl op => Sys2Proof.Machine.execIgl op s

end Sys2Proof.Machine
end

