-- ==== Sys2Proof/Machine/Fetch.lean ====
section
/-! DEFINITION. Fetching an instruction (20_memory R55, R60; 30_encoding R80; 60_exceptions R202, R210): the bytes
that are there are decoded; where one is missing, the fault is the first the CORE meets in the order of the bytes. -/

namespace Sys2Proof.Machine

/-- `FetchByte()` at an address: the byte, or none where it would raise `PcOverrun` (20_memory R55). -/
def fetchByte? (s : State) (a : Addr) : Option Byte := s.byteAt? a.toNat

/-- Up to `n` bytes from an address on, stopping at the first that does not exist. -/
def fetchBytes (s : State) (a : Addr) (n : Nat) : List Byte :=
  match n with
  | 0 => []
  | n + 1 =>
    match fetchByte? s a with
    | none => []
    | some b => b :: fetchBytes s (a + 1) n

/-- The bytes of the instruction at `a` that exist: the opcode byte and, of the operand bytes it calls for, those up to
the first missing one. No other byte is read (20_memory R60). -/
def instrBytes (s : State) (a : Addr) : List Byte :=
  match fetchByte? s a with
  | none => []
  | some b0 => b0 :: fetchBytes s (a + 1) (bytesFetched (decodeOp b0) - 1)

/-- The fault of an instruction whose operand bytes are not all there: going through the operand bytes in address
order, a register index above 31, or else the first missing byte (60_exceptions R210). `a` is the address of the first
byte of `bs`. -/
def missingByteFault (kinds : List OperandKind) (bs : List Byte) (a : Addr) : FaultKind × Word :=
  match kinds, bs with
  | .regIdx :: ks, b :: rest =>
    match regIdx b with
    | some _ => missingByteFault ks rest (a + 1)
    | none => (.regIndexOutOfRange, zextByte b)
  | .raw :: ks, _ :: rest => missingByteFault ks rest (a + 1)
  | _, _ => (.pcOverrun, addrInfo a)

/-- The fault of a fetch at `a` that does not find a whole instruction (60_exceptions R202, R210). -/
def truncationFault (bs : List Byte) (a : Addr) : FaultKind × Word :=
  match bs with
  | [] => (.pcOverrun, addrInfo a)
  | b0 :: rest => missingByteFault (operandKinds (decodeOp b0)) rest (a + 1)

/-- What fetching comes to. -/
inductive Fetched where
  /-- A whole instruction. -/
  | instr (i : Instr)
  /-- A fault of the fetch. -/
  | raised (kind : FaultKind) (info : Word)
  deriving DecidableEq, Repr

/-- Fetch the instruction at `pc`. -/
def fetchInstr (s : State) : Fetched :=
  match decode (instrBytes s s.pc) with
  | .instr i _ => .instr i
  | .rejected _ =>
    let f := truncationFault (instrBytes s s.pc) s.pc
    .raised f.1 f.2

/-- `Step()` of a RUNNING CORE: fetch, then execute (40 R110). -/
def stepRunning (execute : Instr → State → Result) (s : State) : Result :=
  match fetchInstr s with
  | .instr i => execute i s
  | .raised kind info => raise kind info s

end Sys2Proof.Machine
end

