-- ==== Sys2Proof/Machine/Step.lean ====
section
/-! DEFINITION. One step (40 R110 to R112) and the placing of an instruction where the next step fetches it. -/

namespace Sys2Proof.Machine

/-- A step request (70 R245): in `running` one `Step()`; in `halted` and `faulted` no step is taken and nothing changes
(40 R112). -/
def step (s : State) : Host.Outcome State Fault Refusal :=
  match s.runState with
  | .running => stepRunning exec s
  | .halted => .next s
  | .faulted => .next s

/-- `s` with the instruction of a table word standing at its `pc`, in a program memory long enough to hold it, and the
CORE running: what a host's load would have put there (70 R247; notes/assumptions/12.md). -/
def State.withFetchWord (s : State) (nbits w : Nat) : State :=
  (s.placeBytes s.pc (bytesOfTableWord nbits w)).setRunState .running

end Sys2Proof.Machine
end

