-- ==== Sys2Proof/Machine/HostPort.lean ====
section
/-! DEFINITION. The host interface (70_reset_and_hazards R240 to R249; 10_state R24): the transactions a host makes
while no step is in progress, each atomic (R244). -/

namespace Sys2Proof.Machine

/-! ## Reset, run, and what can be read -/

/-- `reset` (70 R240): from any state, everything to its reset value. The model's own count of free values goes on, so
that a later fault takes a fresh one (notes/assumptions/5.md). -/
def hostReset (s : State) : State := { State.reset with freeCount := s.freeCount }

/-- What a step request reports (70 R245). -/
inductive Report where
  /-- "continue": `run_state` is RUNNING afterwards. -/
  | goOn
  /-- "stop": it is not. -/
  | stop
  deriving DecidableEq, Repr

/-- The report of a state reached (70 R245; 40 R111). -/
def reportOf (s : State) : Report :=
  match s.runState with
  | .running => .goOn
  | .halted => .stop
  | .faulted => .stop

/-- `Run()` (40 R113; 70 R246): steps while RUNNING, at most `fuel` of them. The fuel belongs to the executor, not to
the machine (40 R114): a run has ended only when the state reached is not RUNNING (notes/assumptions/15.md). -/
def run (fuel : Nat) (s : State) : Result :=
  match fuel with
  | 0 => .next s
  | fuel + 1 =>
    match s.runState with
    | .running =>
      match step s with
      | .next t => run fuel t
      | .fault f => .fault f
      | .refused r => .refused r
    | .halted => .next s
    | .faulted => .next s

/-- `read_fault`: `fault_kind` and `fault_info`, which mean something only in FAULTED (10_state R34; 70 R249). -/
def readFault (s : State) : Option (FaultKind × Word) :=
  match s.runState with
  | .faulted => s.faultKind.map fun k => (k, s.faultInfo)
  | .running => none
  | .halted => none

/-- Which instruction stopped a HALTED CORE. -/
inductive StopCause where
  | hlt
  | igl
  deriving DecidableEq, Repr

/-- HLT or IGL, read off the byte before `pc`, since neither is stored (10_state R35; 92 D22). -/
def stopCause? (s : State) : Option StopCause :=
  match s.runState with
  | .halted => if s.byteAt? (s.pc - 1).toNat = some 0 then some .hlt else some .igl
  | .running => none
  | .faulted => none

/-! ## Transactions -/

/-- The CORE and what the host must remember about it: whether a step was requested since reset, after which the
program may no longer change (20_memory R53; notes/assumptions/13.md). -/
structure Session where
  core : State
  stepped : Bool
  deriving DecidableEq, Repr

/-- A transaction of 70 R244. `run` is `Session.run`. -/
inductive HostRequest where
  | reset
  | loadProgram (bytes : List Byte)
  | step
  | pokeReg (i : Reg) (v : Word)
  | readReg (i : Reg)
  | readPc
  | readRemainder
  | readEqualFlag
  | readRunState
  | readFault
  deriving DecidableEq, Repr

/-- What a transaction hands back. -/
inductive HostReply where
  | done
  | report (r : Report)
  | word (v : Word)
  | addr (a : Addr)
  | flag (b : Bool)
  | runState (r : RunState)
  | fault (f : Option (FaultKind × Word))
  deriving DecidableEq, Repr

/-- The outcome of a transaction. -/
abbrev HostResult := Host.Outcome (Session × HostReply) Fault Refusal

/-- A session right after reset, nothing loaded. -/
def Session.start : Session := ⟨State.reset, false⟩

/-- `load_program(bytes)`: after reset and before the first step, at most `2^31` bytes; nothing but program memory and
`PROGRAM_LEN` changes (70 R247; 20_memory R53, R54; 93 U15, U18). -/
def Session.loadProgram (x : Session) (bytes : List Byte) : HostResult :=
  if x.stepped then .refused .hostMoveWithoutMeaning
  else if params.maxProgramLen < bytes.length then .refused .programTooLong
  else .next ({ x with core := x.core.setProgram bytes }, .done)

/-- `poke_reg(i, v)`: `x[i] <- v` and nothing else, only while RUNNING (10_state R24; 93 U16). -/
def Session.pokeReg (x : Session) (i : Reg) (v : Word) : HostResult :=
  match x.core.runState with
  | .running => .next ({ x with core := x.core.setReg i v }, .done)
  | .halted => .refused .hostMoveWithoutMeaning
  | .faulted => .refused .hostMoveWithoutMeaning

/-- `step` (70 R245). -/
def Session.step (x : Session) : HostResult :=
  match Machine.step x.core with
  | .next t => .next (⟨t, true⟩, .report (reportOf t))
  | .fault f => .fault f
  | .refused r => .refused r

/-- `run` under an executor's fuel (70 R246). DESIGN CHOICE (notes/assumptions/21.md): the spec's `Run()` returns no
value (40 R113) and fuel is no part of the machine (40 R114); this executor hands the host the report `stop` where the
state reached is not RUNNING, and `goOn` where the fuel ran out, with the state reached. `goOn` here is no outcome of
the hardware. -/
def Session.run (x : Session) (fuel : Nat) : HostResult :=
  match Machine.run fuel x.core with
  | .next t => .next (⟨t, true⟩, .report (reportOf t))
  | .fault f => .fault f
  | .refused r => .refused r

/-- One transaction (70 R244). Reading changes nothing (70 R249). -/
def Session.request (x : Session) (q : HostRequest) : HostResult :=
  match q with
  | .reset => .next (⟨hostReset x.core, false⟩, .done)
  | .loadProgram bytes => x.loadProgram bytes
  | .step => x.step
  | .pokeReg i v => x.pokeReg i v
  | .readReg i => .next (x, .word (x.core.reg i))
  | .readPc => .next (x, .addr x.core.pc)
  | .readRemainder => .next (x, .word x.core.remainder)
  | .readEqualFlag => .next (x, .flag x.core.equalFlag)
  | .readRunState => .next (x, .runState x.core.runState)
  | .readFault => .next (x, .fault (Machine.readFault x.core))

end Sys2Proof.Machine
end

