-- ==== Sys2Proof/Machine/Pseudocode.lean ====
section
/-! DEFINITION. The spec's pseudocode of a step, transcribed as it stands (40 R110 and the rules it names): every
operand byte is fetched where the pseudocode fetches it, `pc` moves with every fetch, and the parameters have the
spec's values written in (a `pc` as wide as a register among them). Nothing of the machine uses this file. It is a second reading of the spec, from which the
machine's way of fetching an instruction whole and then executing it can be shown not to differ. -/

namespace Sys2Proof.Machine

/-- `FetchByte()` (20_memory R55). -/
def pseudoFetchByte (s : State) (k : Byte → State → Result) : Result :=
  if s.progLen ≤ s.pc.toNat then raise .pcOverrun s.pc s
  else k (memRead s.mem s.pc.toNat) { s with pc := s.pc + 1 }

/-- `Fetch16()` (20_memory R56). -/
def pseudoFetch16 (s : State) (k : Half → State → Result) : Result :=
  pseudoFetchByte s fun hi s => pseudoFetchByte s fun lo s =>
    k (BitVec.ofNat 16 (256 * hi.toNat + lo.toNat)) s

/-- `RegIdx(b)` (30_encoding R88). -/
def pseudoRegIdx (b : Byte) (s : State) (k : Reg → Result) : Result :=
  if h : b.toNat > 31 then raise .regIndexOutOfRange (b.setWidth 32) s
  else k ⟨b.toNat, by omega⟩

/-- A register operand: its byte fetched, then checked. -/
def pseudoFetchReg (s : State) (k : Reg → State → Result) : Result :=
  pseudoFetchByte s fun b s => pseudoRegIdx b s fun r => k r s

/-- `FetchA()` (42 R140). -/
def pseudoFetchA (s : State) (k : Word → Word → Reg → State → Result) : Result :=
  pseudoFetchReg s fun s1 s => pseudoFetchReg s fun s2 s => pseudoFetchReg s fun d s =>
    k s.regs[s1] s.regs[s2] d s

/-- `x[d] <- v`. -/
def pseudoWriteReg (d : Reg) (v : Word) (s : State) : State := { s with regs := s.regs.set d v }

/-- `stop`. -/
def pseudoStop (s : State) : Result := .next { s with runState := .halted }

/-- `exec_LOAD` (41 R131). -/
def pseudoLoad (s : State) : Result :=
  pseudoFetchReg s fun d s => pseudoFetch16 s fun imm s => .next (pseudoWriteReg d (imm.setWidth 32) s)

/-- `exec_ADD`, `exec_SUB`, `exec_MUL`, for the exact integer operation `f` (42 R141, R142, R143). -/
def pseudoExact (f : Int → Int → Int) (s : State) : Result :=
  pseudoFetchA s fun a b d s => .next (pseudoWriteReg d (BitVec.ofInt 32 (f a.toInt b.toInt)) s)

/-- `exec_DIV` (42 R144); `pc0` is the address of its opcode byte. -/
def pseudoDiv (pc0 : Addr) (s : State) : Result :=
  pseudoFetchA s fun a b d s =>
    if b.toInt = 0 then raise .divideByZero pc0 s
    else if a.toInt = -2147483648 ∧ b.toInt = -1 then raise .divideOverflow pc0 s
    else .next { pseudoWriteReg d (BitVec.ofInt 32 (a.toInt.tdiv b.toInt)) s with
      remainder := BitVec.ofInt 32 (a.toInt - b.toInt * a.toInt.tdiv b.toInt) }

/-- `exec_JMP` (43 R161). -/
def pseudoJmp (s : State) : Result :=
  pseudoFetchReg s fun r s => .next { s with pc := s.regs[r] }

/-- `exec_JMPF` (43 R164). -/
def pseudoJmpf (s : State) : Result :=
  pseudoFetchByte s fun off s => .next { s with pc := s.pc + off.setWidth 32 }

/-- `exec_JMPB` (43 R167). -/
def pseudoJmpb (pc0 : Addr) (s : State) : Result :=
  pseudoFetchByte s fun off s =>
    if s.pc.toNat < off.toNat then raise .pcUnderflow pc0 s
    else .next { s with pc := s.pc - off.setWidth 32 }

/-- `exec_EQ` (44 R181). -/
def pseudoEq (s : State) : Result :=
  pseudoFetchReg s fun s1 s => pseudoFetchReg s fun s2 s => pseudoFetchByte s fun _ s =>
    .next { s with equalFlag := decide (s.regs[s1] = s.regs[s2]) }

/-- `exec_JEQ` (44 R184). -/
def pseudoJeq (pc0 : Addr) (s : State) : Result :=
  pseudoFetchReg s fun r s =>
    if s.equalFlag = true then .next { s with pc := s.regs[r] } else .next { s with pc := pc0 + 4 }

/-- `Step()` (40 R110). -/
def pseudoStep (s : State) : Result :=
  pseudoFetchByte s fun b0 t =>
    match decodeOp b0 with
    | .hlt => pseudoStop t
    | .igl => pseudoStop t
    | .load => pseudoLoad t
    | .add => pseudoExact (· + ·) t
    | .sub => pseudoExact (· - ·) t
    | .mul => pseudoExact (· * ·) t
    | .div => pseudoDiv s.pc t
    | .jmp => pseudoJmp t
    | .jmpf => pseudoJmpf t
    | .jmpb => pseudoJmpb s.pc t
    | .eq => pseudoEq t
    | .jeq => pseudoJeq s.pc t

end Sys2Proof.Machine
end

