-- ==== Sys2Proof/Safety.lean ====
section
/-! DEFINITION. The terms claims about runs use: when a run has ended and how (40 R113, R115; 60 R212), and the
invariant of a state that a host and the CORE can bring about. -/

namespace Sys2Proof.Machine

/-- The state of a next outcome. -/
def nextState? (o : Result) : Option State :=
  match o with
  | .next t => some t
  | .fault _ => none
  | .refused _ => none

/-- `Run()` from `s` ends in `t` (40 R113; 70 R246). A program that never stops has no such `t` (40 R114). -/
def RunEnds (s t : State) : Prop := t.runState ≠ .running ∧ ∃ fuel, run fuel s = .next t

/-- A run's result is final: it ended in HALTED (40 R115). -/
def RunEndsWell (s t : State) : Prop := RunEnds s t ∧ t.runState = .halted

/-- Program memory is canonical, lies below `PROGRAM_LEN`, and is no longer than the bound of 20_memory R54. -/
def State.ProgramOk (s : State) : Prop :=
  Memory.wf s.mem = true ∧ (∀ c ∈ s.mem, c.1 < s.progLen) ∧ s.progLen ≤ params.maxProgramLen

/-- The stop state is told right: in FAULTED a fault kind is latched (10_state R34), and in HALTED the byte before `pc`
is that of the HLT or IGL that stopped the run (10_state R35; 40 R115). -/
def State.StopOk (s : State) : Prop :=
  (s.runState = .faulted → s.faultKind ≠ none) ∧
  (s.runState = .halted →
    ∃ b, s.byteAt? (s.pc - 1).toNat = some b ∧ (decodeOp b = .hlt ∨ decodeOp b = .igl))

/-- The invariant. -/
def State.Inv (s : State) : Prop := s.ProgramOk ∧ s.StopOk

/-- The invariant of a session: before the first step the CORE is RUNNING (70 R240, R242). -/
def Session.Inv (x : Session) : Prop := x.core.Inv ∧ (x.stepped = false → x.core.runState = .running)

/-- Every address holds the same byte in both states, or in both does not exist. -/
def SameProgram (s t : State) : Prop := ∀ a : Nat, t.byteAt? a = s.byteAt? a

/-- The stop state and the fault latch are as they were. -/
def SameStopState (s t : State) : Prop :=
  t.runState = s.runState ∧ t.faultKind = s.faultKind ∧ t.faultInfo = s.faultInfo ∧ t.freeCount = s.freeCount

/-- A fault that has written no register, `remainder` or `equal_flag`. -/
def FaultedUnwritten (s t : State) : Prop :=
  t.runState = .faulted ∧ (∀ r : Reg, t.reg r = s.reg r) ∧ t.remainder = s.remainder ∧ t.equalFlag = s.equalFlag

end Sys2Proof.Machine
end

