-- ==== Sys2Proof/Certificates/Slice0/Obligations.lean ====
section
/-! DEFINITION. The statements made about the model, for the provers. A fault is stated as `raise kind info s`, the one
operation every fault goes through; what it does is `Obligations.RaiseEffect`. -/

open Sys2Proof Sys2Proof.Machine

/-! ## Reset -/

/-- 10_state R37. -/
def Obligations.ResetLeavesRegistersPcAndProgram : Prop :=
  (∀ r : Reg, State.reset.reg r = 0) ∧ State.reset.pc = 0 ∧ State.reset.runState = .running ∧
  State.reset.progLen = 0 ∧ ∀ a : Nat, State.reset.byteAt? a = none

/-- 10_state section 6: `remainder` and `equal_flag` are the spec's decision D3 (log 3); the fault latch is 10_state
section 1's "none / 0" (log 4). -/
def Obligations.ResetLeavesConditionState : Prop :=
  State.reset.remainder = 0 ∧ State.reset.equalFlag = false ∧
  State.reset.faultKind = none ∧ State.reset.faultInfo = 0

/-- 70 section 1: reset from any state, RUNNING, HALTED or FAULTED, whatever was loaded, gives the state after reset, but
for the model's own count of free values (log 5). The values are partly the spec's decisions D3 (log 3, log 4). -/
def Obligations.HostResetFromAnyState : Prop :=
  ∀ x : Session, x.request .reset = .next (⟨{ State.reset with freeCount := x.core.freeCount }, false⟩, .done)

/-! ## Decoding and encoding -/

/-- 30_encoding R85. -/
def Obligations.OpcodeByteMap : Prop :=
  [0, 1, 2, 3, 4, 5, 6, 7, 8, 9, 10].map decodeOp =
    [.hlt, .load, .add, .sub, .mul, .div, .jmp, .jmpf, .jmpb, .eq, .jeq] ∧
  ∀ b : Byte, 11 ≤ b.toNat → decodeOp b = .igl

/-- 30_encoding R86 (marked derived there). -/
def Obligations.OperationValuesRoundTrip : Prop :=
  (∀ op : Operation, decodeOp (encodeOp op) = op) ∧
  (∀ b : Byte, b.toNat ≤ 11 → encodeOp (decodeOp b) = b) ∧
  ∀ b : Byte, 11 < b.toNat → encodeOp (decodeOp b) = 11

/-- 30_encoding R94 (marked derived there) and R82: of the table's 17 rows exactly one applies to a slot word, and it is
that of the operation the opcode byte decodes to. -/
def Obligations.SlotWordMatchesExactlyOneTableRow : Prop :=
  ∀ b0 b1 b2 b3 : Byte, (opcodeTable.filter (rowApplies (slotWord b0 b1 b2 b3))).map (·.op) = [decodeOp b0]

/-- Words written out from 30_encoding R83 and R84, one or more of each family. -/
def Obligations.SpecWordsDecode : Prop :=
  decode [0x00] = .instr .hlt [] ∧
  decode [0xC8] = .instr (.igl 0xC8) [] ∧
  decode [0x01, 0x0A, 0x01, 0xF4] = .instr (.load 10 500) [] ∧
  decode [0x03, 0x00, 0x03, 0x04] = .instr (.sub 0 3 4) [] ∧
  decode [0x05, 0x00, 0x01, 0x02] = .instr (.div 0 1 2) [] ∧
  decode [0x06, 0x05, 0x00, 0x00] = .instr (.jmp 5) [0, 0] ∧
  decode [0x08, 0x12, 0x00, 0x00] = .instr (.jmpb 18) [0, 0] ∧
  decode [0x09, 0x00, 0x01, 0x4D] = .instr (.eq 0 1 0x4D) [] ∧
  decode [0x0A, 0x03] = .instr (.jeq 3) []

/-- Decoding what a well-formed instruction encodes to gives it back, every operand at every value, and leaves the bytes
after it (30_encoding R83, R84, R86). -/
def Obligations.DecodeOfEncode : Prop :=
  ∀ (i : Instr) (rest : List Byte), i.wf = true → decode (encode i ++ rest) = .instr i rest

/-- Whatever the decoder reads, well formed or with an illegal register byte, encodes to the very bytes it was read from:
no bit is dropped (30_encoding R83, R91). -/
def Obligations.EncodeOfDecode : Prop :=
  ∀ (bs : List Byte) (i : Instr) (rest : List Byte), decode bs = .instr i rest → encode i ++ rest = bs

/-- The decoder refuses exactly the lists that end before the instruction does; no byte value is ever refused
(30_encoding R80, R85, R87). -/
def Obligations.DecodeRefusesOnlyMissingBytes : Prop :=
  ∀ bs : List Byte, (∃ r, decode bs = .rejected r) ↔
    (bs = [] ∨ ∃ b0 rest, bs = b0 :: rest ∧ bs.length < bytesFetched (decodeOp b0))

/-! ## The step -/

/-- 40 R110: where the bytes at `pc` decode to an instruction, the step is that instruction's execution and nothing else:
there is nothing around it. -/
def Obligations.RunningStepRunsDecodedInstruction : Prop :=
  ∀ (s : State) (n : Nat) (i : Instr) (rest : List Byte),
    s.runState = .running → decode (fetchBytes s s.pc n) = .instr i rest → step s = exec i s

/-- 40 section 1 with its decision D14, and 70 section 3: in HALTED and FAULTED no step is taken, by a step request or a
run. -/
def Obligations.StoppedCoreTakesNoStep : Prop :=
  ∀ s : State, s.runState ≠ .running → step s = .next s ∧ ∀ fuel : Nat, run fuel s = .next s

/-- The step of the machine, which fetches an instruction whole and executes it, is the step of the spec's pseudocode,
which fetches and checks each byte where the pseudocode says, at every RUNNING state, reachable or not (log 10). The
pseudocode holds the spec's decisions D1, D4 to D13, D18 and D21 at their values. Where the step faults, that `pc` agrees
is the model's one free value (log 5). -/
def Obligations.StepFollowsThePseudocode : Prop :=
  ∀ s : State, s.runState = .running → step s = pseudoStep s

/-- 40 R111 as the model has it: no step, in any state, ends without a next state (the model's choice, log 6). -/
def Obligations.EveryStepAnswersANextState : Prop :=
  ∀ s : State, ∃ t, step s = .next t

/-- 60 section 4 (R229): a step taken inside a run is the step a step request takes. -/
def Obligations.RunIsRepeatedStep : Prop :=
  ∀ (s t : State) (fuel : Nat), s.runState = .running → step s = .next t → run (fuel + 1) s = run fuel t

/-- 40 R113: a run that ends, ends in one state, whatever the fuel. Of a run that faults it says the model's `pc` is one
free value (log 5), not that the hardware's is. -/
def Obligations.RunEndIsUnique : Prop :=
  ∀ s t u : State, RunEnds s t → RunEnds s u → t = u

/-! ## The invariant -/

/-- The invariant holds right after reset (10_state R37, R34). -/
def Obligations.ResetMeetsInvariant : Prop := State.reset.Inv ∧ Session.start.Inv

/-- Every step keeps it: program memory stays canonical, below `PROGRAM_LEN`, within the bound; a FAULTED CORE has its
kind latched; a HALTED one stands just after an HLT or IGL byte (20_memory R53, R54; 10_state R34, R35; 40 R115; decisions
D2, D11, D15). -/
def Obligations.EveryStepKeepsInvariant : Prop :=
  ∀ s t : State, s.Inv → step s = .next t → t.Inv

/-- So does every transaction of the host (70 R244), `run` among them (decisions D15, D16; log 13). -/
def Obligations.HostRequestsKeepInvariant : Prop :=
  (∀ (x y : Session) (q : HostRequest) (r : HostReply), x.Inv → x.request q = .next (y, r) → y.Inv) ∧
  ∀ (x y : Session) (fuel : Nat) (r : HostReply), x.Inv → x.run fuel = .next (y, r) → y.Inv

/-! ## HLT and IGL -/

/-- 40 R116. -/
def Obligations.HltStopsAfterItsByte : Prop :=
  (∀ s : State, exec .hlt s = .next { s with pc := s.pc + 1, runState := .halted }) ∧
  (∀ s : State, s.runState = .running → s.byteAt? s.pc.toNat = some 0 →
    step s = .next { s with pc := s.pc + 1, runState := .halted }) ∧
  ∀ s : State, s.runState = .running → s.byteAt? s.pc.toNat = none → step s = raise .pcOverrun s.pc s

/-- 40 R117. -/
def Obligations.IglStopsAfterItsByte : Prop :=
  (∀ (op : Byte) (s : State), exec (.igl op) s = .next { s with pc := s.pc + 1, runState := .halted }) ∧
  ∀ (s : State) (b : Byte), s.runState = .running → s.byteAt? s.pc.toNat = some b → 11 ≤ b.toNat →
    step s = .next { s with pc := s.pc + 1, runState := .halted }

/-! ## LOAD -/

/-- 41 R131: the whole rule, byte by byte, at a step whose opcode byte is 1. The order of the checks is decision D13,
what raising leaves D11 and D12. -/
def Obligations.LoadStepIsItsRule : Prop :=
  ∀ s : State, s.runState = .running → s.byteAt? s.pc.toNat = some 1 →
    step s =
      match s.byteAt? (s.pc + 1).toNat with
      | none => raise .pcOverrun (s.pc + 1) s
      | some b1 =>
        if h : b1.toNat < 32 then
          match s.byteAt? (s.pc + 2).toNat with
          | none => raise .pcOverrun (s.pc + 2) s
          | some hi =>
            match s.byteAt? (s.pc + 3).toNat with
            | none => raise .pcOverrun (s.pc + 3) s
            | some lo =>
              .next { s with
                regs := s.regs.set b1.toNat (BitVec.ofNat 32 (256 * hi.toNat + lo.toNat)) h
                pc := s.pc + 4 }
        else raise .regIndexOutOfRange (b1.setWidth 32) s

/-- 30_encoding R89: what LOAD's immediate bytes decode to, and what LOAD then writes: a value of 0 to 65535, never
negative. -/
def Obligations.LoadWritesZeroExtendedImmediate : Prop :=
  ∀ (rd hi lo : Byte) (rest : List Byte), ∃ imm : Half,
    decode (1 :: rd :: hi :: lo :: rest) = .instr (.load rd imm) rest ∧
    imm.toNat = 256 * hi.toNat + lo.toNat ∧
    ∀ (s : State) (h : rd.toNat < 32), ∃ v : Word,
      v.toInt = 256 * hi.toNat + lo.toNat ∧
      exec (.load rd imm) s = .next { s with regs := s.regs.set rd.toNat v h, pc := s.pc + 4 }

/-! ## ADD, SUB, MUL, DIV -/

/-- 42 R141 with R147 (decision D4: the sum wraps): `wrap32` is the balanced residue. All three indices may coincide
(R145, decision D21). -/
def Obligations.AddStoresWrappedSum : Prop :=
  ∀ (rs1 rs2 rd : Byte) (s : State) (h1 : rs1.toNat < 32) (h2 : rs2.toNat < 32) (h3 : rd.toNat < 32),
    ∃ v : Word, v.toInt = ((s.reg ⟨rs1.toNat, h1⟩).toInt + (s.reg ⟨rs2.toNat, h2⟩).toInt).bmod (2 ^ 32) ∧
      exec (.add rs1 rs2 rd) s = .next { s with regs := s.regs.set rd.toNat v h3, pc := s.pc + 4 }

/-- 42 R142 with R147 (decision D4): first operand minus second. -/
def Obligations.SubStoresWrappedDifference : Prop :=
  ∀ (rs1 rs2 rd : Byte) (s : State) (h1 : rs1.toNat < 32) (h2 : rs2.toNat < 32) (h3 : rd.toNat < 32),
    ∃ v : Word, v.toInt = ((s.reg ⟨rs1.toNat, h1⟩).toInt - (s.reg ⟨rs2.toNat, h2⟩).toInt).bmod (2 ^ 32) ∧
      exec (.sub rs1 rs2 rd) s = .next { s with regs := s.regs.set rd.toNat v h3, pc := s.pc + 4 }

/-- 42 R143 with R147 (decision D4): the low 32 bits of the product. -/
def Obligations.MulStoresWrappedProduct : Prop :=
  ∀ (rs1 rs2 rd : Byte) (s : State) (h1 : rs1.toNat < 32) (h2 : rs2.toNat < 32) (h3 : rd.toNat < 32),
    ∃ v : Word, v.toInt = ((s.reg ⟨rs1.toNat, h1⟩).toInt * (s.reg ⟨rs2.toNat, h2⟩).toInt).bmod (2 ^ 32) ∧
      exec (.mul rs1 rs2 rd) s = .next { s with regs := s.regs.set rd.toNat v h3, pc := s.pc + 4 }

/-- 42 R147 (decision D4): ADD, SUB and MUL give the same bits as unsigned arithmetic modulo `2^32` on the registers. -/
def Obligations.AddSubMulSameBitsUnsigned : Prop :=
  ∀ (rs1 rs2 rd : Byte) (s : State) (h1 : rs1.toNat < 32) (h2 : rs2.toNat < 32) (h3 : rd.toNat < 32),
    exec (.add rs1 rs2 rd) s = .next { s with
      regs := s.regs.set rd.toNat (s.reg ⟨rs1.toNat, h1⟩ + s.reg ⟨rs2.toNat, h2⟩) h3, pc := s.pc + 4 } ∧
    exec (.sub rs1 rs2 rd) s = .next { s with
      regs := s.regs.set rd.toNat (s.reg ⟨rs1.toNat, h1⟩ - s.reg ⟨rs2.toNat, h2⟩) h3, pc := s.pc + 4 } ∧
    exec (.mul rs1 rs2 rd) s = .next { s with
      regs := s.regs.set rd.toNat (s.reg ⟨rs1.toNat, h1⟩ * s.reg ⟨rs2.toNat, h2⟩) h3, pc := s.pc + 4 }

/-- 42 R144 and R146 (decisions D5, D6): off the two faulting cases, the truncated quotient goes to `x[rd]`, exactly,
and the remainder's bit pattern to `remainder`. -/
def Obligations.DivStoresQuotientAndRemainder : Prop :=
  ∀ (rs1 rs2 rd : Byte) (s : State) (h1 : rs1.toNat < 32) (h2 : rs2.toNat < 32) (h3 : rd.toNat < 32) (a b : Int),
    a = (s.reg ⟨rs1.toNat, h1⟩).toInt → b = (s.reg ⟨rs2.toNat, h2⟩).toInt →
    b ≠ 0 → ¬ (a = -2147483648 ∧ b = -1) →
    ∃ q r : Word, q.toInt = a.tdiv b ∧ r.toInt = a - b * a.tdiv b ∧
      exec (.div rs1 rs2 rd) s = .next { s with regs := s.regs.set rd.toNat q h3, remainder := r, pc := s.pc + 4 }

/-- 42 R146 (decision D5): after every DIV that does not fault, `a = b * x[rd] + signed(remainder)`, the remainder is
smaller than the divisor, and it is 0 or has the sign of the dividend; whichever registers coincide. -/
def Obligations.DivIdentityHolds : Prop :=
  ∀ (rs1 rs2 rd : Byte) (s t : State) (h1 : rs1.toNat < 32) (h2 : rs2.toNat < 32) (h3 : rd.toNat < 32) (a b r : Int),
    a = (s.reg ⟨rs1.toNat, h1⟩).toInt → b = (s.reg ⟨rs2.toNat, h2⟩).toInt →
    exec (.div rs1 rs2 rd) s = .next t → s.runState = .running → t.runState = .running → r = t.remainder.toInt →
    a = b * (t.reg ⟨rd.toNat, h3⟩).toInt + r ∧ r.natAbs < b.natAbs ∧ (r = 0 ∨ (r < 0 ↔ a < 0))

/-- 42 R144, 60 R204 and R205 (decisions D6, D12): the two division faults, with the address of the DIV. -/
def Obligations.DivisionFaults : Prop :=
  (∀ (rs1 rs2 rd : Byte) (s : State) (h2 : rs2.toNat < 32), rs1.toNat < 32 → rd.toNat < 32 →
    s.reg ⟨rs2.toNat, h2⟩ = 0 →
    exec (.div rs1 rs2 rd) s = raise .divideByZero s.pc s) ∧
  (∀ (rs1 rs2 rd : Byte) (s : State) (h1 : rs1.toNat < 32) (h2 : rs2.toNat < 32), rd.toNat < 32 →
    (s.reg ⟨rs1.toNat, h1⟩).toInt = -2147483648 → (s.reg ⟨rs2.toNat, h2⟩).toInt = -1 →
    exec (.div rs1 rs2 rd) s = raise .divideOverflow s.pc s)

/-! ## Jumps -/

/-- 43 R161 and R162 (decision D10): `pc` takes the 32 bits of the register, whatever address that is. -/
def Obligations.JmpSetsPcToRegister : Prop :=
  ∀ (rs : Byte) (s : State) (h : rs.toNat < 32), exec (.jmp rs) s = .next { s with pc := s.reg ⟨rs.toNat, h⟩ }

/-- 43 R161: the whole rule, byte by byte, at a step whose opcode byte is 6 (decisions D10 to D12). -/
def Obligations.JmpStepIsItsRule : Prop :=
  ∀ s : State, s.runState = .running → s.byteAt? s.pc.toNat = some 6 →
    step s =
      match s.byteAt? (s.pc + 1).toNat with
      | none => raise .pcOverrun (s.pc + 1) s
      | some b1 =>
        if h : b1.toNat < 32 then .next { s with pc := s.reg ⟨b1.toNat, h⟩ }
        else raise .regIndexOutOfRange (b1.setWidth 32) s

/-- 43 R164: the instruction at every offset and every `pc`, and the whole rule at a step whose opcode byte is 7, where
the target is `pc0 + 2 + off` without wrapping (the bound on the program that rules wrapping out is decision D2). -/
def Obligations.JmpfJumpsForward : Prop :=
  (∀ (off : Byte) (s : State), exec (.jmpf off) s = .next { s with pc := s.pc + 2 + off.setWidth 32 }) ∧
  ∀ s : State, s.runState = .running → s.byteAt? s.pc.toNat = some 7 → s.progLen ≤ 2 ^ 31 →
    match s.byteAt? (s.pc + 1).toNat with
    | none => step s = raise .pcOverrun (s.pc + 1) s
    | some off => ∃ t : Addr, t.toNat = s.pc.toNat + 2 + off.toNat ∧ step s = .next { s with pc := t }

/-- 43 R167 and R168 (decision D9): an offset up to the `pc` after it is subtracted; a greater one faults with the
address of the JMPB. -/
def Obligations.JmpbJumpsBackwardOrFaults : Prop :=
  (∀ (off : Byte) (s : State), off.toNat ≤ (s.pc + 2).toNat →
    ∃ t : Addr, t.toNat = (s.pc + 2).toNat - off.toNat ∧ exec (.jmpb off) s = .next { s with pc := t }) ∧
  ∀ (off : Byte) (s : State), (s.pc + 2).toNat < off.toNat → exec (.jmpb off) s = raise .pcUnderflow s.pc s

/-- 10_state R29 (which rests on decisions D2, D9): while the program is within its bound, `pc` after a step that does
not fault is the sum or difference 10_state R26 gives, with no wrap (not-taken JEQ: decision D7). -/
def Obligations.PcNeverWraps : Prop :=
  ∀ (s t : State) (i : Instr) (rest : List Byte), s.ProgramOk → s.runState = .running →
    decode (fetchBytes s s.pc 4) = .instr i rest → step s = .next t → t.runState ≠ .faulted →
    match i with
    | .hlt => t.pc.toNat = s.pc.toNat + 1
    | .igl _ => t.pc.toNat = s.pc.toNat + 1
    | .load _ _ => t.pc.toNat = s.pc.toNat + 4
    | .add _ _ _ => t.pc.toNat = s.pc.toNat + 4
    | .sub _ _ _ => t.pc.toNat = s.pc.toNat + 4
    | .mul _ _ _ => t.pc.toNat = s.pc.toNat + 4
    | .div _ _ _ => t.pc.toNat = s.pc.toNat + 4
    | .eq _ _ _ => t.pc.toNat = s.pc.toNat + 4
    | .jmpf off => t.pc.toNat = s.pc.toNat + 2 + off.toNat
    | .jmpb off => t.pc.toNat + off.toNat = s.pc.toNat + 2
    | .jmp rs => ∃ h : rs.toNat < 32, t.pc = s.reg ⟨rs.toNat, h⟩
    | .jeq rs => ∃ h : rs.toNat < 32,
        (s.equalFlag = true → t.pc = s.reg ⟨rs.toNat, h⟩) ∧ (s.equalFlag = false → t.pc.toNat = s.pc.toNat + 4)

/-! ## EQ and JEQ -/

/-- 44 R181 (decision D18 for the padding byte): all 32 bits compared, whatever the padding. -/
def Obligations.EqComparesAllBits : Prop :=
  ∀ (rs1 rs2 pad : Byte) (s : State) (h1 : rs1.toNat < 32) (h2 : rs2.toNat < 32),
    exec (.eq rs1 rs2 pad) s = .next { s with
      equalFlag := decide (∀ k : Fin 32, (s.reg ⟨rs1.toNat, h1⟩).getLsbD k = (s.reg ⟨rs2.toNat, h2⟩).getLsbD k)
      pc := s.pc + 4 }

/-- 44 R184 and R185 (decisions D7, D10): taken, `pc` takes the register; not taken, it is `pc0 + 4`; the flag stays. -/
def Obligations.JeqTakenAndNotTaken : Prop :=
  ∀ (rs : Byte) (s : State) (h : rs.toNat < 32),
    (s.equalFlag = true → exec (.jeq rs) s = .next { s with pc := s.reg ⟨rs.toNat, h⟩ }) ∧
    (s.equalFlag = false → exec (.jeq rs) s = .next { s with pc := s.pc + 4 })

/-! ## Faults -/

/-- 60 R208 (decision D12): what raising a fault leaves. Nothing is said of `pc`: any value. -/
def Obligations.RaiseEffect : Prop :=
  ∀ (kind : FaultKind) (info : Word) (s : State), ∃ t, raise kind info s = .next t ∧
    t.runState = .faulted ∧ t.faultKind = some kind ∧ t.faultInfo = info ∧ readFault t = some (kind, info) ∧
    (∀ r : Reg, t.reg r = s.reg r) ∧ t.remainder = s.remainder ∧ t.equalFlag = s.equalFlag ∧ SameProgram s t

/-- 30_encoding R88: the whole byte is the index; a byte above 31 raises and is not reduced. -/
def Obligations.RegIdxTakesTheWholeByte : Prop :=
  (∀ (b : Byte) (s : State) (k : Reg → Result), b.toNat ≤ 31 → ∃ r : Reg, r.val = b.toNat ∧ withReg b s k = k r) ∧
  ∀ (b : Byte) (s : State) (k : Reg → Result), 31 < b.toNat →
    withReg b s k = raise .regIndexOutOfRange (b.setWidth 32) s

/-- 60 R203 and R210 (decisions D8, D13): each register operand of each instruction that is above 31 raises, the first in
the order of the bytes, before the division checks, and in JEQ taken or not. -/
def Obligations.IllegalRegisterBytesFault : Prop :=
  (∀ (i : Byte → Byte → Byte → Instr) (rs1 rs2 rd : Byte) (s : State), i = .add ∨ i = .sub ∨ i = .mul ∨ i = .div →
    (31 < rs1.toNat → exec (i rs1 rs2 rd) s = raise .regIndexOutOfRange (rs1.setWidth 32) s) ∧
    (rs1.toNat ≤ 31 → 31 < rs2.toNat → exec (i rs1 rs2 rd) s = raise .regIndexOutOfRange (rs2.setWidth 32) s) ∧
    (rs1.toNat ≤ 31 → rs2.toNat ≤ 31 → 31 < rd.toNat →
      exec (i rs1 rs2 rd) s = raise .regIndexOutOfRange (rd.setWidth 32) s)) ∧
  (∀ (b : Byte) (imm : Half) (s : State), 31 < b.toNat →
    exec (.load b imm) s = raise .regIndexOutOfRange (b.setWidth 32) s ∧
    exec (.jmp b) s = raise .regIndexOutOfRange (b.setWidth 32) s ∧
    exec (.jeq b) s = raise .regIndexOutOfRange (b.setWidth 32) s) ∧
  ∀ (rs1 rs2 pad : Byte) (s : State),
    (31 < rs1.toNat → exec (.eq rs1 rs2 pad) s = raise .regIndexOutOfRange (rs1.setWidth 32) s) ∧
    (rs1.toNat ≤ 31 → 31 < rs2.toNat → exec (.eq rs1 rs2 pad) s = raise .regIndexOutOfRange (rs2.setWidth 32) s)

/-- 60 R202, 10_state R28 and 20_memory R67, R68 (the rendering as FAULTED is decision D11): the opcode fetch at or
beyond the end of the program raises `PcOverrun`, whatever brought `pc` there; so does the first step with no program. -/
def Obligations.OpcodeFetchPastEndFaults : Prop :=
  (∀ s : State, s.runState = .running → s.progLen ≤ s.pc.toNat → step s = raise .pcOverrun s.pc s) ∧
  step State.reset = raise .pcOverrun 0 State.reset

/-- 60 R202, R203 and R210 (decision D13). Of the operand bytes that are there, going from the first: a register index
above 31 raises `RegIndexOutOfRange` when all before it were legal, even if a later byte is missing; and where no byte
that is there raises, the first missing one raises `PcOverrun` with its address. -/
def Obligations.OperandFaultsComeInByteOrder : Prop :=
  ∀ (s : State) (b0 : Byte) (there : List Byte) (kinds : List OperandKind),
    s.runState = .running → s.byteAt? s.pc.toNat = some b0 → kinds = operandKinds (decodeOp b0) →
    there = fetchBytes s (s.pc + 1) kinds.length →
    (∀ (k : Nat) (b : Byte), there[k]? = some b → kinds[k]? = some .regIdx → 31 < b.toNat →
      (∀ (j : Nat) (c : Byte), j < k → there[j]? = some c → kinds[j]? = some .regIdx → c.toNat ≤ 31) →
      step s = raise .regIndexOutOfRange (b.setWidth 32) s) ∧
    (there.length < kinds.length →
      (∀ (j : Nat) (c : Byte), there[j]? = some c → kinds[j]? = some .regIdx → c.toNat ≤ 31) →
      step s = raise .pcOverrun (s.pc + 1 + BitVec.ofNat 32 there.length) s)

/-- 60 R208 and R209 (decision D12): a step that faults has written no register, no flag and no program byte, and has
latched its kind. -/
def Obligations.FaultingStepsArePrecise : Prop :=
  ∀ s t : State, s.runState = .running → step s = .next t → t.runState = .faulted →
    (∀ r : Reg, t.reg r = s.reg r) ∧ t.remainder = s.remainder ∧ t.equalFlag = s.equalFlag ∧ SameProgram s t ∧
    ∃ k, t.faultKind = some k

/-! ## Rules of the whole machine -/

/-- 40 R111: only HLT and IGL stop the CORE, each just after its byte. -/
def Obligations.OnlyHltAndIglHalt : Prop :=
  ∀ s t : State, s.runState = .running → step s = .next t → t.runState = .halted →
    ∃ b, s.byteAt? s.pc.toNat = some b ∧ (b = 0 ∨ 11 ≤ b.toNat) ∧ t = { s with pc := s.pc + 1, runState := .halted }

/-- 10_state section 4 (decision D22): whether HLT or IGL stopped the CORE is read off the byte before `pc`. -/
def Obligations.StopCauseReadsTheStoppingByte : Prop :=
  ∀ (s t : State) (b : Byte), s.runState = .running → s.byteAt? s.pc.toNat = some b →
    step s = .next t → t.runState = .halted →
    (b = 0 → stopCause? t = some .hlt) ∧ (b ≠ 0 → stopCause? t = some .igl)

/-- 10_state R23, as a rule of the whole machine: which instructions write a register, and which one. -/
def Obligations.OnlyLoadAndAluWriteRegisters : Prop :=
  ∀ (i : Instr) (s t : State) (r : Reg), exec i s = .next t → t.reg r ≠ s.reg r →
    match i with
    | .load rd _ => r.val = rd.toNat
    | .add _ _ rd => r.val = rd.toNat
    | .sub _ _ rd => r.val = rd.toNat
    | .mul _ _ rd => r.val = rd.toNat
    | .div _ _ rd => r.val = rd.toNat
    | .hlt => False
    | .jmp _ => False
    | .jmpf _ => False
    | .jmpb _ => False
    | .eq _ _ _ => False
    | .jeq _ => False
    | .igl _ => False

/-- 10_state R30 and R31: in a step `remainder` changes only if the opcode byte is DIV's and `equal_flag` only if it is
EQ's. -/
def Obligations.OnlyDivAndEqWriteConditionState : Prop :=
  ∀ s t : State, step s = .next t →
    (t.remainder ≠ s.remainder → s.byteAt? s.pc.toNat = some 5) ∧
    (t.equalFlag ≠ s.equalFlag → s.byteAt? s.pc.toNat = some 9)

/-- 20_memory R52 and R53 (decision D15): no step, and no run, changes program memory or its length. -/
def Obligations.ProgramMemoryNeverChanges : Prop :=
  ∀ (s t : State) (fuel : Nat), run fuel s = .next t → t.mem = s.mem ∧ t.progLen = s.progLen

/-- 20_memory R60 (marked derived there): a step depends on no program byte but those its instruction consumes. Two
programs that agree on them take the same step from the same registers. (Where the step faults, that `pc` agrees too is
the model's one free value, log 5.) -/
def Obligations.StepReadsOnlyItsOwnBytes : Prop :=
  ∀ (s s' t : State) (m : List Host.Cell) (len : Nat), s.runState = .running →
    s' = { s with mem := m, progLen := len } → s'.byteAt? s.pc.toNat = s.byteAt? s.pc.toNat →
    (∀ (b0 : Byte) (k : Nat), s.byteAt? s.pc.toNat = some b0 → k < bytesFetched (decodeOp b0) →
      s'.byteAt? (s.pc + BitVec.ofNat 32 k).toNat = s.byteAt? (s.pc + BitVec.ofNat 32 k).toNat) →
    step s = .next t → step s' = .next { t with mem := m, progLen := len }

/-! ## Frames -/

/-- HLT and IGL change `pc` and `run_state` and nothing else (40 R116, R117). -/
def Obligations.FrameOfStops : Prop :=
  ∀ (i : Instr) (s t : State), (i = .hlt ∨ ∃ op, i = .igl op) → exec i s = .next t →
    (∀ r : Reg, t.reg r = s.reg r) ∧ t.remainder = s.remainder ∧ t.equalFlag = s.equalFlag ∧
    t.faultKind = s.faultKind ∧ t.faultInfo = s.faultInfo ∧ t.freeCount = s.freeCount ∧ SameProgram s t

/-- LOAD, ADD, SUB and MUL change `x[rd]` and `pc`; where they fault, the stop state and `pc` (41 R131; 42 R141, R142, R143;
the fault's part is decision D12). -/
def Obligations.FrameOfLoadAddSubMul : Prop :=
  ∀ (i : Instr) (rd : Byte) (s t : State),
    ((∃ imm, i = .load rd imm) ∨ (∃ rs1 rs2, i = .add rs1 rs2 rd) ∨ (∃ rs1 rs2, i = .sub rs1 rs2 rd) ∨
      ∃ rs1 rs2, i = .mul rs1 rs2 rd) →
    exec i s = .next t →
    (∀ r : Reg, r.val ≠ rd.toNat → t.reg r = s.reg r) ∧ t.remainder = s.remainder ∧ t.equalFlag = s.equalFlag ∧
    (SameStopState s t ∨ FaultedUnwritten s t) ∧ SameProgram s t

/-- DIV changes `x[rd]`, `remainder` and `pc`; where it faults, the stop state and `pc` (42 R144; the fault's part is
decision D12). -/
def Obligations.FrameOfDiv : Prop :=
  ∀ (rs1 rs2 rd : Byte) (s t : State), exec (.div rs1 rs2 rd) s = .next t →
    (∀ r : Reg, r.val ≠ rd.toNat → t.reg r = s.reg r) ∧ t.equalFlag = s.equalFlag ∧
    (SameStopState s t ∨ FaultedUnwritten s t) ∧ SameProgram s t

/-- JMP, JMPF, JMPB and JEQ change `pc`; where they fault, the stop state too (43 R161, R164, R167; 44 R184; the fault's
part is decision D12). -/
def Obligations.FrameOfJumps : Prop :=
  ∀ (i : Instr) (b : Byte) (s t : State), (i = .jmp b ∨ i = .jmpf b ∨ i = .jmpb b ∨ i = .jeq b) → exec i s = .next t →
    (∀ r : Reg, t.reg r = s.reg r) ∧ t.remainder = s.remainder ∧ t.equalFlag = s.equalFlag ∧
    (SameStopState s t ∨ t.runState = .faulted) ∧ SameProgram s t

/-- EQ changes `equal_flag` and `pc`; where it faults, the stop state and `pc` (44 R181; the fault's part is decision D12). -/
def Obligations.FrameOfEq : Prop :=
  ∀ (rs1 rs2 pad : Byte) (s t : State), exec (.eq rs1 rs2 pad) s = .next t →
    (∀ r : Reg, t.reg r = s.reg r) ∧ t.remainder = s.remainder ∧
    (SameStopState s t ∨ FaultedUnwritten s t) ∧ SameProgram s t

/-! ## Program memory and the host -/

/-- The canonical form is worth its name: two canonical memories that read alike everywhere are equal data (log 2). -/
def Obligations.CanonicalMemoryIsItsBytes : Prop :=
  ∀ m m' : List Host.Cell, Memory.wf m = true → Memory.wf m' = true → (∀ a : Nat, memRead m a = memRead m' a) → m = m'

/-- 70 R247 (the bound is decision D2, the transactions D16): `load_program` in a session that has taken no step: every
byte is at its address, `PROGRAM_LEN` is their number, and registers, `pc`, flags and `run_state` are as before. -/
def Obligations.LoadProgramThenRead : Prop :=
  ∀ (x : Session) (bytes : List Byte), x.stepped = false → bytes.length ≤ 2 ^ 31 →
    ∃ y : Session, x.request (.loadProgram bytes) = .next (y, .done) ∧
      y.core.progLen = bytes.length ∧ (∀ a : Nat, y.core.byteAt? a = bytes[a]?) ∧
      y = { x with core := { x.core with mem := y.core.mem, progLen := y.core.progLen } }

/-- 93 U15, U16, U18: the host moves the spec gives no meaning are refused by name (the model's choice, log 13). -/
def Obligations.MeaninglessHostMovesAreRefused : Prop :=
  (∀ (x : Session) (bytes : List Byte), x.stepped = true →
    x.request (.loadProgram bytes) = .refused .hostMoveWithoutMeaning) ∧
  (∀ (x : Session) (bytes : List Byte), x.stepped = false → 2 ^ 31 < bytes.length →
    x.request (.loadProgram bytes) = .refused .programTooLong) ∧
  ∀ (x : Session) (i : Reg) (v : Word), x.core.runState ≠ .running →
    x.request (.pokeReg i v) = .refused .hostMoveWithoutMeaning

/-- 10_state section 2 (R24, decision D16): `poke_reg` writes the one register and nothing else, and the host reads the
value back. -/
def Obligations.PokeRegWritesOneRegister : Prop :=
  ∀ (x : Session) (i : Reg) (v : Word), x.core.runState = .running →
    ∃ y : Session, x.request (.pokeReg i v) = .next (y, .done) ∧
      y = { x with core := { x.core with regs := y.core.regs } } ∧
      (∀ r : Reg, y.core.reg r = if r = i then v else x.core.reg r) ∧
      y.request (.readReg i) = .next (y, .word v)

/-- 70 R249 (decision D16): every read answers the state it names and changes nothing. -/
def Obligations.ReadsChangeNothing : Prop :=
  ∀ x : Session,
    (∀ i : Reg, x.request (.readReg i) = .next (x, .word (x.core.reg i))) ∧
    x.request .readPc = .next (x, .addr x.core.pc) ∧
    x.request .readRemainder = .next (x, .word x.core.remainder) ∧
    x.request .readEqualFlag = .next (x, .flag x.core.equalFlag) ∧
    x.request .readRunState = .next (x, .runState x.core.runState) ∧
    (∀ k : FaultKind, x.core.runState = .faulted → x.core.faultKind = some k →
      x.request .readFault = .next (x, .fault (some (k, x.core.faultInfo))))

/-- 70 R245 (decisions D14, D16): a step request takes `step` and reports continue exactly when the CORE is still RUNNING
after it. -/
def Obligations.StepRequestReports : Prop :=
  ∀ (x : Session) (t : State), step x.core = .next t →
    ∃ r : Report, x.request .step = .next (⟨t, true⟩, .report r) ∧ (r = .goOn ↔ t.runState = .running)
end

