-- ==== Sys2Proof/Laws/Decode.lean ====
section
/-! SUPPORT. Small laws of the decoder's parts: the immediate's two bytes, the slot word's top byte, and how many bytes
an instruction takes. -/

namespace Sys2Proof

/-- The immediate's value (20_memory R56). -/
theorem immOf_toNat (hi lo : Byte) : (immOf hi lo).toNat = 256 * hi.toNat + lo.toNat := by
  have := hi.isLt
  have := lo.isLt
  simp only [immOf, BitVec.toNat_ofNat]
  omega

/-- Its two bytes, put together again. -/
theorem immOf_bytes (imm : Half) : immOf (imm.extractLsb' 8 8) (imm.extractLsb' 0 8) = imm := by
  apply BitVec.eq_of_toNat_eq
  have := imm.isLt
  simp [immOf, Nat.shiftRight_eq_div_pow]
  omega

/-- Its high byte. -/
theorem immOf_hi (hi lo : Byte) : (immOf hi lo).extractLsb' 8 8 = hi := by
  have := hi.isLt
  have := lo.isLt
  apply BitVec.eq_of_toNat_eq
  simp [immOf, Nat.shiftRight_eq_div_pow]
  omega

/-- Its low byte. -/
theorem immOf_lo (hi lo : Byte) : (immOf hi lo).extractLsb' 0 8 = lo := by
  have := hi.isLt
  have := lo.isLt
  apply BitVec.eq_of_toNat_eq
  simp [immOf]
  omega

/-- The opcode byte is the most significant byte of the slot word (30_encoding R82). -/
theorem slotWord_top (b0 b1 b2 b3 : Byte) : (slotWord b0 b1 b2 b3).extractLsb' 24 8 = b0 := by
  ext i hi
  simp only [slotWord, BitVec.getElem_extractLsb', BitVec.getLsbD_or, BitVec.getLsbD_shiftLeft,
    BitVec.getLsbD_setWidth, BitVec.getLsbD_of_ge b1 (24 + i - 16) (by omega),
    BitVec.getLsbD_of_ge b2 (24 + i - 8) (by omega), BitVec.getLsbD_of_ge b3 (24 + i) (by omega),
    show 24 + i - 24 = i by omega, show ¬ (24 + i < 24) by omega, show 24 + i < 32 by omega]
  simp [BitVec.getLsbD_eq_getElem hi]
  omega

/-- A mask and a pattern within the top byte test the top byte alone (30_encoding R94). -/
theorem and_mask_top (w : BitVec 32) (m p : Byte) :
    (w &&& m.setWidth 32 <<< 24 = p.setWidth 32 <<< 24) ↔ (w.extractLsb' 24 8 &&& m = p) := by
  constructor
  · intro h
    ext i hi
    have hb := congrArg (fun v => v.getLsbD (24 + i)) h
    simp only [BitVec.getLsbD_and, BitVec.getLsbD_shiftLeft, BitVec.getLsbD_setWidth, show ¬ (24 + i < 24) by omega,
      show 24 + i - 24 = i by omega, show i < 32 by omega, show 24 + i < 32 by omega] at hb
    simpa [BitVec.getLsbD_eq_getElem hi] using hb
  · rintro rfl
    apply BitVec.eq_of_getLsbD_eq
    intro i hi
    simp only [BitVec.getLsbD_and, BitVec.getLsbD_shiftLeft, BitVec.getLsbD_setWidth, BitVec.getLsbD_extractLsb', hi,
      decide_true, Bool.true_and]
    by_cases h : i < 24
    · simp only [h, decide_true, Bool.not_true, Bool.false_and, Bool.and_false]
    · simp only [h, decide_false, Bool.not_false, Bool.true_and, show 24 + (i - 24) = i by omega,
        show i - 24 < 8 by omega, show i - 24 < 32 by omega, decide_true]

/-- One operand kind for each operand byte (30_encoding R83). -/
theorem operandKinds_length (op : Operation) : (operandKinds op).length = bytesFetched op - 1 := by
  cases op <;> rfl

/-- An instruction read had all its operand bytes. -/
theorem decodeOperands_instr_length {op : Operation} {b0 : Byte} {bs rest : List Byte} {i : Instr}
    (h : decodeOperands op b0 bs = .instr i rest) : bytesFetched op - 1 ≤ bs.length := by
  cases op <;> simp only [decodeOperands] at h <;> (try split at h) <;> (try cases h) <;> simp [bytesFetched]

/-- Only those bytes matter to which instruction it is. -/
theorem decodeOperands_take {op : Operation} {b0 : Byte} {bs rest : List Byte} {i : Instr}
    (h : decodeOperands op b0 bs = .instr i rest) :
    decodeOperands op b0 (bs.take (bytesFetched op - 1)) = .instr i [] := by
  cases op <;> simp only [decodeOperands] at h <;> (try split at h) <;> (try cases h) <;>
    simp [bytesFetched, decodeOperands]

/-- An instruction read is one of the operation asked for. -/
theorem decodeOperands_operation {op : Operation} {b0 : Byte} {bs rest : List Byte} {i : Instr}
    (h : decodeOperands op b0 bs = .instr i rest) : i.operation = op := by
  cases op <;> simp only [decodeOperands] at h <;> (try split at h) <;> cases h <;> rfl

end Sys2Proof
end

