-- ==== Sys2Proof/Laws/State.lean ====
section
/-! SUPPORT. What each update of the state does to each field, so that no proof unfolds a record update, and reading a
register after an update. -/

namespace Sys2Proof.Machine

variable (s : State)

/-! `State.setReg` -/

@[simp] theorem State.setReg_regs (i : Reg) (v : Word) : (s.setReg i v).regs = s.regs.set i v := rfl
@[simp] theorem State.setReg_pc (i : Reg) (v : Word) : (s.setReg i v).pc = s.pc := rfl
@[simp] theorem State.setReg_remainder (i : Reg) (v : Word) : (s.setReg i v).remainder = s.remainder := rfl
@[simp] theorem State.setReg_equalFlag (i : Reg) (v : Word) : (s.setReg i v).equalFlag = s.equalFlag := rfl
@[simp] theorem State.setReg_runState (i : Reg) (v : Word) : (s.setReg i v).runState = s.runState := rfl
@[simp] theorem State.setReg_faultKind (i : Reg) (v : Word) : (s.setReg i v).faultKind = s.faultKind := rfl
@[simp] theorem State.setReg_faultInfo (i : Reg) (v : Word) : (s.setReg i v).faultInfo = s.faultInfo := rfl
@[simp] theorem State.setReg_mem (i : Reg) (v : Word) : (s.setReg i v).mem = s.mem := rfl
@[simp] theorem State.setReg_progLen (i : Reg) (v : Word) : (s.setReg i v).progLen = s.progLen := rfl
@[simp] theorem State.setReg_freeCount (i : Reg) (v : Word) : (s.setReg i v).freeCount = s.freeCount := rfl
@[simp] theorem State.setReg_byteAt (i : Reg) (v : Word) (n : Nat) : (s.setReg i v).byteAt? n = s.byteAt? n := rfl

/-! `State.setPc` -/

@[simp] theorem State.setPc_regs (t : Addr) : (s.setPc t).regs = s.regs := rfl
@[simp] theorem State.setPc_pc (t : Addr) : (s.setPc t).pc = t := rfl
@[simp] theorem State.setPc_remainder (t : Addr) : (s.setPc t).remainder = s.remainder := rfl
@[simp] theorem State.setPc_equalFlag (t : Addr) : (s.setPc t).equalFlag = s.equalFlag := rfl
@[simp] theorem State.setPc_runState (t : Addr) : (s.setPc t).runState = s.runState := rfl
@[simp] theorem State.setPc_faultKind (t : Addr) : (s.setPc t).faultKind = s.faultKind := rfl
@[simp] theorem State.setPc_faultInfo (t : Addr) : (s.setPc t).faultInfo = s.faultInfo := rfl
@[simp] theorem State.setPc_mem (t : Addr) : (s.setPc t).mem = s.mem := rfl
@[simp] theorem State.setPc_progLen (t : Addr) : (s.setPc t).progLen = s.progLen := rfl
@[simp] theorem State.setPc_freeCount (t : Addr) : (s.setPc t).freeCount = s.freeCount := rfl
@[simp] theorem State.setPc_reg (t : Addr) (i : Reg) : (s.setPc t).reg i = s.reg i := rfl
@[simp] theorem State.setPc_byteAt (t : Addr) (n : Nat) : (s.setPc t).byteAt? n = s.byteAt? n := rfl

/-! `State.advance` -/

@[simp] theorem State.advance_regs (n : Nat) : (s.advance n).regs = s.regs := rfl
@[simp] theorem State.advance_pc (n : Nat) : (s.advance n).pc = s.pc + BitVec.ofNat 32 n := rfl
@[simp] theorem State.advance_remainder (n : Nat) : (s.advance n).remainder = s.remainder := rfl
@[simp] theorem State.advance_equalFlag (n : Nat) : (s.advance n).equalFlag = s.equalFlag := rfl
@[simp] theorem State.advance_runState (n : Nat) : (s.advance n).runState = s.runState := rfl
@[simp] theorem State.advance_faultKind (n : Nat) : (s.advance n).faultKind = s.faultKind := rfl
@[simp] theorem State.advance_faultInfo (n : Nat) : (s.advance n).faultInfo = s.faultInfo := rfl
@[simp] theorem State.advance_mem (n : Nat) : (s.advance n).mem = s.mem := rfl
@[simp] theorem State.advance_progLen (n : Nat) : (s.advance n).progLen = s.progLen := rfl
@[simp] theorem State.advance_freeCount (n : Nat) : (s.advance n).freeCount = s.freeCount := rfl
@[simp] theorem State.advance_reg (n : Nat) (i : Reg) : (s.advance n).reg i = s.reg i := rfl
@[simp] theorem State.advance_byteAt (n : Nat) (m : Nat) : (s.advance n).byteAt? m = s.byteAt? m := rfl

/-! `State.setRemainder` -/

@[simp] theorem State.setRemainder_regs (v : Word) : (s.setRemainder v).regs = s.regs := rfl
@[simp] theorem State.setRemainder_pc (v : Word) : (s.setRemainder v).pc = s.pc := rfl
@[simp] theorem State.setRemainder_remainder (v : Word) : (s.setRemainder v).remainder = v := rfl
@[simp] theorem State.setRemainder_equalFlag (v : Word) : (s.setRemainder v).equalFlag = s.equalFlag := rfl
@[simp] theorem State.setRemainder_runState (v : Word) : (s.setRemainder v).runState = s.runState := rfl
@[simp] theorem State.setRemainder_faultKind (v : Word) : (s.setRemainder v).faultKind = s.faultKind := rfl
@[simp] theorem State.setRemainder_faultInfo (v : Word) : (s.setRemainder v).faultInfo = s.faultInfo := rfl
@[simp] theorem State.setRemainder_mem (v : Word) : (s.setRemainder v).mem = s.mem := rfl
@[simp] theorem State.setRemainder_progLen (v : Word) : (s.setRemainder v).progLen = s.progLen := rfl
@[simp] theorem State.setRemainder_freeCount (v : Word) : (s.setRemainder v).freeCount = s.freeCount := rfl
@[simp] theorem State.setRemainder_reg (v : Word) (i : Reg) : (s.setRemainder v).reg i = s.reg i := rfl
@[simp] theorem State.setRemainder_byteAt (v : Word) (n : Nat) : (s.setRemainder v).byteAt? n = s.byteAt? n := rfl

/-! `State.setEqualFlag` -/

@[simp] theorem State.setEqualFlag_regs (b : Bool) : (s.setEqualFlag b).regs = s.regs := rfl
@[simp] theorem State.setEqualFlag_pc (b : Bool) : (s.setEqualFlag b).pc = s.pc := rfl
@[simp] theorem State.setEqualFlag_remainder (b : Bool) : (s.setEqualFlag b).remainder = s.remainder := rfl
@[simp] theorem State.setEqualFlag_equalFlag (b : Bool) : (s.setEqualFlag b).equalFlag = b := rfl
@[simp] theorem State.setEqualFlag_runState (b : Bool) : (s.setEqualFlag b).runState = s.runState := rfl
@[simp] theorem State.setEqualFlag_faultKind (b : Bool) : (s.setEqualFlag b).faultKind = s.faultKind := rfl
@[simp] theorem State.setEqualFlag_faultInfo (b : Bool) : (s.setEqualFlag b).faultInfo = s.faultInfo := rfl
@[simp] theorem State.setEqualFlag_mem (b : Bool) : (s.setEqualFlag b).mem = s.mem := rfl
@[simp] theorem State.setEqualFlag_progLen (b : Bool) : (s.setEqualFlag b).progLen = s.progLen := rfl
@[simp] theorem State.setEqualFlag_freeCount (b : Bool) : (s.setEqualFlag b).freeCount = s.freeCount := rfl
@[simp] theorem State.setEqualFlag_reg (b : Bool) (i : Reg) : (s.setEqualFlag b).reg i = s.reg i := rfl
@[simp] theorem State.setEqualFlag_byteAt (b : Bool) (n : Nat) : (s.setEqualFlag b).byteAt? n = s.byteAt? n := rfl

/-! `State.setRunState` -/

@[simp] theorem State.setRunState_regs (r : RunState) : (s.setRunState r).regs = s.regs := rfl
@[simp] theorem State.setRunState_pc (r : RunState) : (s.setRunState r).pc = s.pc := rfl
@[simp] theorem State.setRunState_remainder (r : RunState) : (s.setRunState r).remainder = s.remainder := rfl
@[simp] theorem State.setRunState_equalFlag (r : RunState) : (s.setRunState r).equalFlag = s.equalFlag := rfl
@[simp] theorem State.setRunState_runState (r : RunState) : (s.setRunState r).runState = r := rfl
@[simp] theorem State.setRunState_faultKind (r : RunState) : (s.setRunState r).faultKind = s.faultKind := rfl
@[simp] theorem State.setRunState_faultInfo (r : RunState) : (s.setRunState r).faultInfo = s.faultInfo := rfl
@[simp] theorem State.setRunState_mem (r : RunState) : (s.setRunState r).mem = s.mem := rfl
@[simp] theorem State.setRunState_progLen (r : RunState) : (s.setRunState r).progLen = s.progLen := rfl
@[simp] theorem State.setRunState_freeCount (r : RunState) : (s.setRunState r).freeCount = s.freeCount := rfl
@[simp] theorem State.setRunState_reg (r : RunState) (i : Reg) : (s.setRunState r).reg i = s.reg i := rfl
@[simp] theorem State.setRunState_byteAt (r : RunState) (n : Nat) : (s.setRunState r).byteAt? n = s.byteAt? n := rfl

/-! `State.stop` -/

@[simp] theorem State.stop_regs : s.stop.regs = s.regs := rfl
@[simp] theorem State.stop_pc : s.stop.pc = s.pc + 1 := rfl
@[simp] theorem State.stop_remainder : s.stop.remainder = s.remainder := rfl
@[simp] theorem State.stop_equalFlag : s.stop.equalFlag = s.equalFlag := rfl
@[simp] theorem State.stop_runState : s.stop.runState = .halted := rfl
@[simp] theorem State.stop_faultKind : s.stop.faultKind = s.faultKind := rfl
@[simp] theorem State.stop_faultInfo : s.stop.faultInfo = s.faultInfo := rfl
@[simp] theorem State.stop_mem : s.stop.mem = s.mem := rfl
@[simp] theorem State.stop_progLen : s.stop.progLen = s.progLen := rfl
@[simp] theorem State.stop_freeCount : s.stop.freeCount = s.freeCount := rfl
@[simp] theorem State.stop_reg (i : Reg) : s.stop.reg i = s.reg i := rfl
@[simp] theorem State.stop_byteAt (n : Nat) : s.stop.byteAt? n = s.byteAt? n := rfl

/-! `State.raised` -/

@[simp] theorem State.raised_regs (k : FaultKind) (info : Word) : (s.raised k info).regs = s.regs := rfl
@[simp] theorem State.raised_pc (k : FaultKind) (info : Word) : (s.raised k info).pc = Config.freePc 32 s.freeCount := rfl
@[simp] theorem State.raised_remainder (k : FaultKind) (info : Word) : (s.raised k info).remainder = s.remainder := rfl
@[simp] theorem State.raised_equalFlag (k : FaultKind) (info : Word) : (s.raised k info).equalFlag = s.equalFlag := rfl
@[simp] theorem State.raised_runState (k : FaultKind) (info : Word) : (s.raised k info).runState = .faulted := rfl
@[simp] theorem State.raised_faultKind (k : FaultKind) (info : Word) : (s.raised k info).faultKind = some k := rfl
@[simp] theorem State.raised_faultInfo (k : FaultKind) (info : Word) : (s.raised k info).faultInfo = info := rfl
@[simp] theorem State.raised_mem (k : FaultKind) (info : Word) : (s.raised k info).mem = s.mem := rfl
@[simp] theorem State.raised_progLen (k : FaultKind) (info : Word) : (s.raised k info).progLen = s.progLen := rfl
@[simp] theorem State.raised_freeCount (k : FaultKind) (info : Word) : (s.raised k info).freeCount = s.freeCount + 1 := rfl
@[simp] theorem State.raised_reg (k : FaultKind) (info : Word) (i : Reg) : (s.raised k info).reg i = s.reg i := rfl
@[simp] theorem State.raised_byteAt (k : FaultKind) (info : Word) (n : Nat) : (s.raised k info).byteAt? n = s.byteAt? n := rfl

/-! `State.setProgram` -/

@[simp] theorem State.setProgram_regs (bs : List Byte) : (s.setProgram bs).regs = s.regs := rfl
@[simp] theorem State.setProgram_pc (bs : List Byte) : (s.setProgram bs).pc = s.pc := rfl
@[simp] theorem State.setProgram_remainder (bs : List Byte) : (s.setProgram bs).remainder = s.remainder := rfl
@[simp] theorem State.setProgram_equalFlag (bs : List Byte) : (s.setProgram bs).equalFlag = s.equalFlag := rfl
@[simp] theorem State.setProgram_runState (bs : List Byte) : (s.setProgram bs).runState = s.runState := rfl
@[simp] theorem State.setProgram_faultKind (bs : List Byte) : (s.setProgram bs).faultKind = s.faultKind := rfl
@[simp] theorem State.setProgram_faultInfo (bs : List Byte) : (s.setProgram bs).faultInfo = s.faultInfo := rfl
@[simp] theorem State.setProgram_mem (bs : List Byte) : (s.setProgram bs).mem = memOfBytes 0 bs := rfl
@[simp] theorem State.setProgram_progLen (bs : List Byte) : (s.setProgram bs).progLen = bs.length := rfl
@[simp] theorem State.setProgram_freeCount (bs : List Byte) : (s.setProgram bs).freeCount = s.freeCount := rfl
@[simp] theorem State.setProgram_reg (bs : List Byte) (i : Reg) : (s.setProgram bs).reg i = s.reg i := rfl

/-! `State.placeByte` -/

@[simp] theorem State.placeByte_regs (a : Nat) (b : Byte) : (s.placeByte a b).regs = s.regs := rfl
@[simp] theorem State.placeByte_pc (a : Nat) (b : Byte) : (s.placeByte a b).pc = s.pc := rfl
@[simp] theorem State.placeByte_remainder (a : Nat) (b : Byte) : (s.placeByte a b).remainder = s.remainder := rfl
@[simp] theorem State.placeByte_equalFlag (a : Nat) (b : Byte) : (s.placeByte a b).equalFlag = s.equalFlag := rfl
@[simp] theorem State.placeByte_runState (a : Nat) (b : Byte) : (s.placeByte a b).runState = s.runState := rfl
@[simp] theorem State.placeByte_faultKind (a : Nat) (b : Byte) : (s.placeByte a b).faultKind = s.faultKind := rfl
@[simp] theorem State.placeByte_faultInfo (a : Nat) (b : Byte) : (s.placeByte a b).faultInfo = s.faultInfo := rfl
@[simp] theorem State.placeByte_mem (a : Nat) (b : Byte) : (s.placeByte a b).mem = memInsert a b s.mem := rfl
@[simp] theorem State.placeByte_progLen (a : Nat) (b : Byte) : (s.placeByte a b).progLen = max s.progLen (a + 1) := rfl
@[simp] theorem State.placeByte_freeCount (a : Nat) (b : Byte) : (s.placeByte a b).freeCount = s.freeCount := rfl
@[simp] theorem State.placeByte_reg (a : Nat) (b : Byte) (i : Reg) : (s.placeByte a b).reg i = s.reg i := rfl

/-! Registers -/

/-- A register reads as the value last written to it (10_state R22). -/
@[simp] theorem State.setReg_reg_same (i : Reg) (v : Word) : (s.setReg i v).reg i = v := by
  simp [State.reg, State.setReg]

/-- A write leaves every other register alone. -/
theorem State.setReg_reg_of_ne {i r : Reg} (v : Word) (h : r ≠ i) : (s.setReg i v).reg r = s.reg r := by
  simp only [State.reg, State.setReg, Fin.getElem_fin]
  exact Vector.getElem_set_ne _ _ fun e => h (Fin.ext e.symm)

/-- Both at once. -/
theorem State.setReg_reg (i r : Reg) (v : Word) : (s.setReg i v).reg r = if r = i then v else s.reg r := by
  split
  · next h => subst h; exact s.setReg_reg_same r v
  · next h => exact s.setReg_reg_of_ne v h

/-- Every register is 0 at reset (10_state R37). -/
@[simp] theorem State.reset_reg (r : Reg) : State.reset.reg r = 0 := by
  simp [State.reg, State.reset]

end Sys2Proof.Machine
end

