-- ==== Sys2Proof/Laws/Ops.lean ====
section
/-! SUPPORT. What each shared operation can do, said once: the operand forms, the ALU, the stop, the fault, the step.
Later proofs cite these and do not unfold the operations. -/

namespace Sys2Proof.Machine

/-! ## Register operands -/

/-- A byte below 32 names the register of that number. -/
theorem regIdx_of_lt {b : Byte} (h : b.toNat < 32) : regIdx b = some ⟨b.toNat, h⟩ := by
  simp [regIdx, h]

/-- A byte of 32 or more names none. -/
theorem regIdx_of_ge {b : Byte} (h : ¬ b.toNat < 32) : regIdx b = none := by
  simp [regIdx, h]

/-- A register operand goes on with the register, -/
theorem withReg_of_lt {b : Byte} (h : b.toNat < 32) (s : State) (k : Reg → Result) :
    withReg b s k = k ⟨b.toNat, h⟩ := by
  simp [withReg, regIdx_of_lt h]

/-- or raises. -/
theorem withReg_of_ge {b : Byte} (h : ¬ b.toNat < 32) (s : State) (k : Reg → Result) :
    withReg b s k = raise .regIndexOutOfRange (zextByte b) s := by
  simp [withReg, regIdx_of_ge h]

/-- All a register operand can answer when it answers a next state: what comes after it does, or it faulted. -/
theorem withReg_next {b : Byte} {s t : State} {k : Reg → Result} (h : withReg b s k = .next t) :
    (∃ hb : b.toNat < 32, k ⟨b.toNat, hb⟩ = .next t) ∨
    (¬ b.toNat < 32 ∧ t = s.raised .regIndexOutOfRange (zextByte b)) := by
  by_cases hb : b.toNat < 32
  · rw [withReg_of_lt hb] at h; exact .inl ⟨hb, h⟩
  · rw [withReg_of_ge hb] at h; cases h; exact .inr ⟨hb, rfl⟩

/-- The operands of format A, all three legal. -/
theorem withOperandsA_of_lt {rs1 rs2 rd : Byte} (h1 : rs1.toNat < 32) (h2 : rs2.toNat < 32) (h3 : rd.toNat < 32)
    (s : State) (k : Word → Word → Reg → Result) :
    withOperandsA rs1 rs2 rd s k = k (s.reg ⟨rs1.toNat, h1⟩) (s.reg ⟨rs2.toNat, h2⟩) ⟨rd.toNat, h3⟩ := by
  simp [withOperandsA, withReg_of_lt h1, withReg_of_lt h2, withReg_of_lt h3]

/-- All the operands of format A can answer when they answer a next state. -/
theorem withOperandsA_next {rs1 rs2 rd : Byte} {s t : State} {k : Word → Word → Reg → Result}
    (h : withOperandsA rs1 rs2 rd s k = .next t) :
    (∃ (h1 : rs1.toNat < 32) (h2 : rs2.toNat < 32) (h3 : rd.toNat < 32),
      k (s.reg ⟨rs1.toNat, h1⟩) (s.reg ⟨rs2.toNat, h2⟩) ⟨rd.toNat, h3⟩ = .next t) ∨
    (∃ b : Byte, ¬ b.toNat < 32 ∧ t = s.raised .regIndexOutOfRange (zextByte b)) := by
  rcases withReg_next h with ⟨h1, h⟩ | ⟨h1, h⟩
  · rcases withReg_next h with ⟨h2, h⟩ | ⟨h2, h⟩
    · rcases withReg_next h with ⟨h3, h⟩ | ⟨h3, h⟩
      · exact .inl ⟨h1, h2, h3, h⟩
      · exact .inr ⟨rd, h3, h⟩
    · exact .inr ⟨rs2, h2, h⟩
  · exact .inr ⟨rs1, h1, h⟩

/-! ## Addresses: `pc` is as wide as a register -/

@[simp] theorem addrInfo_eq (a : Addr) : addrInfo a = a := rfl
@[simp] theorem jumpTarget_eq (s : State) (r : Reg) : jumpTarget s r = s.reg r := rfl

/-- The bound `omega` needs: the width of an address is not a literal. -/
theorem addr_toNat_lt (a : Addr) : a.toNat < 2 ^ 32 := a.isLt

/-- An offset or operand byte as an address keeps its value (30_encoding R90). -/
@[simp] theorem zextAddr_toNat (b : Byte) : (zextAddr b).toNat = b.toNat :=
  BitVec.toNat_setWidth_of_le (by decide)

/-- Addresses add modulo `2^32`. -/
theorem addr_add_toNat (a b : Addr) : (a + b).toNat = (a.toNat + b.toNat) % 2 ^ 32 := BitVec.toNat_add a b

/-- The address `n` bytes on, where that does not wrap (10_state R29). -/
theorem addr_add_ofNat_toNat (a : Addr) {n : Nat} (h : a.toNat + n < 2 ^ 32) : (a + BitVec.ofNat 32 n).toNat = a.toNat + n := by
  rw [addr_add_toNat]
  simp only [BitVec.toNat_ofNat]
  omega

/-- A lower address subtracted (43 R167). -/
theorem addr_sub_toNat {a b : Addr} (h : b.toNat ≤ a.toNat) : (a - b).toNat = a.toNat - b.toNat :=
  BitVec.toNat_sub_of_le h

/-! ## The ALU -/

/-- `wrap32` is the residue in the signed range (00_scope R11). -/
theorem wrap32_toInt (n : Int) : (wrap32 n).toInt = n.bmod (2 ^ 32) := by
  simp [wrap32, BitVec.toInt_ofInt]

/-- A value in the signed range is kept. -/
theorem wrap32_toInt_of_range {n : Int} (h1 : int32Min ≤ n) (h2 : n ≤ int32Max) : (wrap32 n).toInt = n := by
  simp only [int32Min, int32Max] at h1 h2
  rw [wrap32_toInt]
  exact Int.bmod_eq_of_le (by omega) (by omega)

/-- The result of ADD, SUB, MUL under this machine's parameters: always a next state. -/
theorem storeExact_params (n : Int) (d : Reg) (s : State) :
    storeExact params n d s = .next ((s.setReg d (wrap32 n)).advance 4) := rfl

/-- All DIV can come to under this machine's parameters (42 R144, R148). -/
theorem divide_cases (a b : Word) :
    (b.toInt = 0 ∧ divide params a b = .byZero) ∨
    (a.toInt = int32Min ∧ b.toInt = -1 ∧ divide params a b = .overflow) ∨
    (b.toInt ≠ 0 ∧ ¬ (a.toInt = int32Min ∧ b.toInt = -1) ∧
      divide params a b = .done (wrap32 (a.toInt.tdiv b.toInt)) (wrap32 (a.toInt - b.toInt * a.toInt.tdiv b.toInt))) := by
  unfold divide
  split
  · next h => exact .inl ⟨h, rfl⟩
  · next h =>
    split
    · next h' => exact .inr (.inl ⟨h'.1, h'.2.1, rfl⟩)
    · next h' => exact .inr (.inr ⟨h, fun c => h' ⟨c.1, c.2, rfl⟩, rfl⟩)

/-! ## Faults and stops -/

/-- Raising a fault is a next state (60_exceptions R208). -/
@[simp] theorem raise_eq (k : FaultKind) (info : Word) (s : State) : raise k info s = .next (s.raised k info) := rfl

/-- All a division can answer when it answers a next state. -/
theorem storeDivision_next {o : DivOutcome} {d : Reg} {s t : State} (h : storeDivision o d s = .next t) :
    (∃ q r, o = .done q r ∧ t = ((s.setReg d q).setRemainder r).advance 4) ∨
    (o = .byZero ∧ t = s.raised .divideByZero s.pc) ∨ (o = .overflow ∧ t = s.raised .divideOverflow s.pc) := by
  cases o <;> cases h
  · exact .inl ⟨_, _, rfl, rfl⟩
  · exact .inr (.inl ⟨rfl, rfl⟩)
  · exact .inr (.inr ⟨rfl, rfl⟩)

/-! ## What an instruction can do, one inversion for each -/

/-- The state differs at most in registers, `pc`, `remainder` and `equal_flag`: what an instruction that neither stops
nor faults may change. -/
def State.DataStep (s t : State) : Prop :=
  ∃ regs pc rem flag, t = { s with regs := regs, pc := pc, remainder := rem, equalFlag := flag }

theorem execLoad_next {rd : Byte} {imm : Half} {s t : State} (h : execLoad rd imm s = .next t) :
    (∃ hd : rd.toNat < 32, t = (s.setReg ⟨rd.toNat, hd⟩ (zextImm imm)).advance 4) ∨ ∃ k info, t = s.raised k info := by
  rcases withReg_next h with ⟨hd, h⟩ | ⟨_, rfl⟩
  · cases h; exact .inl ⟨hd, rfl⟩
  · exact .inr ⟨_, _, rfl⟩

theorem execAdd_next {rs1 rs2 rd : Byte} {s t : State} (h : execAdd rs1 rs2 rd s = .next t) :
    (∃ (hd : rd.toNat < 32) (v : Word), t = (s.setReg ⟨rd.toNat, hd⟩ v).advance 4) ∨ ∃ k info, t = s.raised k info := by
  unfold execAdd addWith at h
  rcases withOperandsA_next h with ⟨_, _, hd, h⟩ | ⟨_, _, rfl⟩
  · cases h; exact .inl ⟨hd, _, rfl⟩
  · exact .inr ⟨_, _, rfl⟩

theorem execSub_next {rs1 rs2 rd : Byte} {s t : State} (h : execSub rs1 rs2 rd s = .next t) :
    (∃ (hd : rd.toNat < 32) (v : Word), t = (s.setReg ⟨rd.toNat, hd⟩ v).advance 4) ∨ ∃ k info, t = s.raised k info := by
  unfold execSub subWith at h
  rcases withOperandsA_next h with ⟨_, _, hd, h⟩ | ⟨_, _, rfl⟩
  · cases h; exact .inl ⟨hd, _, rfl⟩
  · exact .inr ⟨_, _, rfl⟩

theorem execMul_next {rs1 rs2 rd : Byte} {s t : State} (h : execMul rs1 rs2 rd s = .next t) :
    (∃ (hd : rd.toNat < 32) (v : Word), t = (s.setReg ⟨rd.toNat, hd⟩ v).advance 4) ∨ ∃ k info, t = s.raised k info := by
  unfold execMul mulWith at h
  rcases withOperandsA_next h with ⟨_, _, hd, h⟩ | ⟨_, _, rfl⟩
  · cases h; exact .inl ⟨hd, _, rfl⟩
  · exact .inr ⟨_, _, rfl⟩

theorem execDiv_next {rs1 rs2 rd : Byte} {s t : State} (h : execDiv rs1 rs2 rd s = .next t) :
    (∃ (hd : rd.toNat < 32) (q r : Word), t = ((s.setReg ⟨rd.toNat, hd⟩ q).setRemainder r).advance 4) ∨
    ∃ k info, t = s.raised k info := by
  unfold execDiv divWith at h
  rcases withOperandsA_next h with ⟨_, _, hd, h⟩ | ⟨_, _, rfl⟩
  · rcases storeDivision_next h with ⟨q, r, _, rfl⟩ | ⟨_, rfl⟩ | ⟨_, rfl⟩
    · exact .inl ⟨hd, q, r, rfl⟩
    · exact .inr ⟨_, _, rfl⟩
    · exact .inr ⟨_, _, rfl⟩
  · exact .inr ⟨_, _, rfl⟩

theorem execJmp_next {rs : Byte} {s t : State} (h : execJmp rs s = .next t) :
    (∃ hr : rs.toNat < 32, t = s.setPc (s.reg ⟨rs.toNat, hr⟩)) ∨ ∃ k info, t = s.raised k info := by
  rcases withReg_next h with ⟨hr, h⟩ | ⟨_, rfl⟩
  · cases h; exact .inl ⟨hr, rfl⟩
  · exact .inr ⟨_, _, rfl⟩

theorem execJmpf_next {off : Byte} {s t : State} (h : execJmpf off s = .next t) : t = s.setPc (s.pc + 2 + zextAddr off) := by
  cases h; rfl

theorem execJmpb_next {off : Byte} {s t : State} (h : execJmpb off s = .next t) :
    (zextAddr off ≤ s.pc + 2 ∧ t = s.setPc (s.pc + 2 - zextAddr off)) ∨
    (s.pc + 2 < zextAddr off ∧ t = s.raised .pcUnderflow s.pc) := by
  unfold execJmpb jmpbWith at h
  split at h <;> cases h
  · next c => exact .inr ⟨c.1, rfl⟩
  · next c => exact .inl ⟨BitVec.not_lt.mp fun l => c ⟨l, rfl⟩, rfl⟩

theorem execEq_next {rs1 rs2 pad : Byte} {s t : State} (h : execEq rs1 rs2 pad s = .next t) :
    (∃ f : Bool, t = (s.setEqualFlag f).advance 4) ∨ ∃ k info, t = s.raised k info := by
  rcases withReg_next h with ⟨_, h⟩ | ⟨_, rfl⟩
  · rcases withReg_next h with ⟨_, h⟩ | ⟨_, rfl⟩
    · cases h; exact .inl ⟨_, rfl⟩
    · exact .inr ⟨_, _, rfl⟩
  · exact .inr ⟨_, _, rfl⟩

theorem execJeq_next {rs : Byte} {s t : State} (h : execJeq rs s = .next t) :
    (∃ hr : rs.toNat < 32, s.equalFlag = true ∧ t = s.setPc (s.reg ⟨rs.toNat, hr⟩)) ∨
    (s.equalFlag = false ∧ t = s.setPc (s.pc + 4)) ∨ ∃ k info, t = s.raised k info := by
  rcases withReg_next h with ⟨hr, h⟩ | ⟨_, rfl⟩
  · split at h <;> cases h
    · next c => exact .inl ⟨hr, c, rfl⟩
    · next c => exact .inr (.inl ⟨by simpa using c, rfl⟩)
  · exact .inr (.inr ⟨_, _, rfl⟩)

/-- All an instruction can do to a state: HLT and IGL stop, a fault is raised, or at most registers, `pc`, `remainder`
and `equal_flag` change. Program memory never does. -/
theorem exec_cases {i : Instr} {s t : State} (h : exec i s = .next t) :
    (t = s.stop ∧ (i.operation = .hlt ∨ i.operation = .igl)) ∨ (∃ k info, t = s.raised k info) ∨ s.DataStep t := by
  cases i with
  | hlt => cases h; exact .inl ⟨rfl, .inl rfl⟩
  | igl op => cases h; exact .inl ⟨rfl, .inr rfl⟩
  | load rd imm => rcases execLoad_next h with ⟨_, rfl⟩ | f; exacts [.inr (.inr ⟨_, _, _, _, rfl⟩), .inr (.inl f)]
  | add rs1 rs2 rd => rcases execAdd_next h with ⟨_, _, rfl⟩ | f; exacts [.inr (.inr ⟨_, _, _, _, rfl⟩), .inr (.inl f)]
  | sub rs1 rs2 rd => rcases execSub_next h with ⟨_, _, rfl⟩ | f; exacts [.inr (.inr ⟨_, _, _, _, rfl⟩), .inr (.inl f)]
  | mul rs1 rs2 rd => rcases execMul_next h with ⟨_, _, rfl⟩ | f; exacts [.inr (.inr ⟨_, _, _, _, rfl⟩), .inr (.inl f)]
  | div rs1 rs2 rd => rcases execDiv_next h with ⟨_, _, _, rfl⟩ | f; exacts [.inr (.inr ⟨_, _, _, _, rfl⟩), .inr (.inl f)]
  | jmp rs => rcases execJmp_next h with ⟨_, rfl⟩ | f; exacts [.inr (.inr ⟨_, _, _, _, rfl⟩), .inr (.inl f)]
  | jmpf off => exact .inr (.inr ⟨_, _, _, _, execJmpf_next h⟩)
  | jmpb off =>
    rcases execJmpb_next h with ⟨_, rfl⟩ | ⟨_, rfl⟩
    exacts [.inr (.inr ⟨_, _, _, _, rfl⟩), .inr (.inl ⟨_, _, rfl⟩)]
  | eq rs1 rs2 pad => rcases execEq_next (pad := pad) h with ⟨_, rfl⟩ | f; exacts [.inr (.inr ⟨_, _, _, _, rfl⟩), .inr (.inl f)]
  | jeq rs =>
    rcases execJeq_next h with ⟨_, _, rfl⟩ | ⟨_, rfl⟩ | f
    exacts [.inr (.inr ⟨_, _, _, _, rfl⟩), .inr (.inr ⟨_, _, _, _, rfl⟩), .inr (.inl f)]

/-! ## The step -/

/-- A step of a RUNNING CORE executes the instruction fetched, or raises the fault of the fetch. -/
theorem step_running {s : State} (h : s.runState = .running) :
    (∃ i, fetchInstr s = .instr i ∧ step s = exec i s) ∨
    (∃ k info, fetchInstr s = .raised k info ∧ step s = raise k info s) := by
  simp only [step, h, stepRunning]
  cases hf : fetchInstr s with
  | instr i => exact .inl ⟨i, rfl, rfl⟩
  | raised k info => exact .inr ⟨k, info, rfl, rfl⟩

/-- An instruction fetched is the one its bytes decode to. -/
theorem fetchInstr_instr {s : State} {i : Instr} (h : fetchInstr s = .instr i) :
    ∃ rest, decode (instrBytes s s.pc) = .instr i rest := by
  unfold fetchInstr at h
  split at h
  · next j rest e => cases h; exact ⟨rest, e⟩
  · cases h

/-- The bytes of an instruction are none exactly where its opcode byte does not exist. -/
theorem instrBytes_eq_nil {s : State} {a : Addr} : instrBytes s a = [] ↔ fetchByte? s a = none := by
  unfold instrBytes
  split <;> simp_all

end Sys2Proof.Machine
end

