-- ==== Sys2Proof/Laws/Fetch.lean ====
section
/-! SUPPORT. Fetching: which bytes are fetched, and what a fetch comes to with and without an opcode byte. -/

namespace Sys2Proof.Machine

/-- No more bytes than asked for. -/
theorem fetchBytes_length (s : State) : ∀ (n : Nat) (a : Addr), (fetchBytes s a n).length ≤ n
  | 0, _ => by simp [fetchBytes]
  | n + 1, a => by
    simp only [fetchBytes]
    split
    · simp
    · simpa using fetchBytes_length s n (a + 1)

/-- Fetching fewer bytes gives the first of them. -/
theorem fetchBytes_take (s : State) : ∀ (n m : Nat) (a : Addr), (fetchBytes s a n).take m = fetchBytes s a (min m n)
  | 0, m, a => by simp [fetchBytes]
  | n + 1, 0, a => by simp [fetchBytes]
  | n + 1, m + 1, a => by
    rw [Nat.add_min_add_right]
    simp only [fetchBytes]
    cases fetchByte? s a with
    | none => rfl
    | some b => simp only [List.take_succ_cons, fetchBytes_take s n m (a + 1)]

/-- A first byte fetched is the byte at the address, and the rest are those after it. -/
theorem fetchBytes_eq_cons {s : State} {a : Addr} {n : Nat} {b : Byte} {bs : List Byte} (h : fetchBytes s a n = b :: bs) :
    ∃ m, n = m + 1 ∧ fetchByte? s a = some b ∧ fetchBytes s (a + 1) m = bs := by
  cases n with
  | zero => cases h
  | succ m =>
    refine ⟨m, rfl, ?_⟩
    simp only [fetchBytes] at h
    split at h <;> cases h
    next e => exact ⟨e, rfl⟩

/-- Without an opcode byte a fetch comes to `PcOverrun` (60_exceptions R202). -/
theorem fetchInstr_of_none {s : State} (h : fetchByte? s s.pc = none) : fetchInstr s = .raised .pcOverrun s.pc := by
  simp [fetchInstr, instrBytes, h, decode, truncationFault]

/-- With one, to the instruction its operand bytes complete, or to the fault of the first byte that fails. -/
theorem fetchInstr_of_some {s : State} {b0 : Byte} (h : fetchByte? s s.pc = some b0) :
    fetchInstr s =
      match decodeOperands (decodeOp b0) b0 (fetchBytes s (s.pc + 1) (bytesFetched (decodeOp b0) - 1)) with
      | .instr i _ => .instr i
      | .rejected _ =>
        let f := missingByteFault (operandKinds (decodeOp b0))
          (fetchBytes s (s.pc + 1) (bytesFetched (decodeOp b0) - 1)) (s.pc + 1)
        .raised f.1 f.2 := by
  have e : instrBytes s s.pc = b0 :: fetchBytes s (s.pc + 1) (bytesFetched (decodeOp b0) - 1) := by
    simp [instrBytes, h]
  unfold fetchInstr
  rw [e]
  rfl

/-- A byte that exists lies below the end of the program (20_memory R50). -/
theorem State.byteAt_lt {s : State} {a : Nat} {b : Byte} (h : s.byteAt? a = some b) : a < s.progLen := by
  unfold State.byteAt? at h
  split at h
  · assumption
  · cases h

end Sys2Proof.Machine
end

