-- ==== Sys2Proof/Laws/Memory.lean ====
section
/-! SUPPORT. Program memory: reading after a write, reading a loaded program, and that every operation on it keeps the
canonical form. -/

namespace Sys2Proof.Machine

/-- A canonical list stays one when a lower bound is asked of it. -/
theorem memSorted_mono {lo lo' : Nat} (h : lo' ≤ lo) : ∀ {m : List Host.Cell}, memSorted lo m = true → memSorted lo' m = true
  | [], _ => rfl
  | c :: rest, hm => by
    simp only [memSorted, Bool.and_eq_true, decide_eq_true_eq] at hm ⊢
    exact ⟨⟨le_trans h hm.1.1, hm.1.2⟩, hm.2⟩

/-- An address below every listed one reads as the default. -/
theorem memRead_of_lt {a lo : Nat} (h : a < lo) : ∀ {m : List Host.Cell}, memSorted lo m = true → memRead m a = memDefault
  | [], _ => rfl
  | c :: rest, hm => by
    simp only [memSorted, Bool.and_eq_true, decide_eq_true_eq] at hm
    have hne : c.1 ≠ a := by omega
    simp only [memRead, hne, if_false]
    exact memRead_of_lt (by omega) hm.2

/-- A write keeps the canonical form. -/
theorem memInsert_sorted {a lo : Nat} (b : Byte) (hlo : lo ≤ a) :
    ∀ {m : List Host.Cell}, memSorted lo m = true → memSorted lo (memInsert a b m) = true
  | [], _ => by
    unfold memInsert
    split <;> simp_all [memSorted]
  | c :: rest, hm => by
    have hm' := hm
    simp only [memSorted, Bool.and_eq_true, decide_eq_true_eq, bne_iff_ne] at hm
    unfold memInsert
    split
    · next h =>
      simp only [memSorted, Bool.and_eq_true, decide_eq_true_eq, bne_iff_ne]
      exact ⟨hm.1, memInsert_sorted b (by omega) hm.2⟩
    · next h =>
      split
      · next he =>
        split
        · exact memSorted_mono (by omega) hm.2
        · next hb =>
          simp only [memSorted, Bool.and_eq_true, decide_eq_true_eq, bne_iff_ne]
          exact ⟨⟨hlo, hb⟩, memSorted_mono (by omega) hm.2⟩
      · next he =>
        split
        · exact hm'
        · next hb =>
          simp only [memSorted, Bool.and_eq_true, decide_eq_true_eq, bne_iff_ne]
          exact ⟨⟨hlo, hb⟩, ⟨by omega, hm.1.2⟩, hm.2⟩

/-- A read after a write: the byte written at that address, what was there at any other. -/
theorem memRead_memInsert (a x : Nat) (b : Byte) {lo : Nat} :
    ∀ {m : List Host.Cell}, memSorted lo m = true → memRead (memInsert a b m) x = if x = a then b else memRead m x
  | [], _ => by
    unfold memInsert
    by_cases hx : x = a
    · subst hx; split <;> simp_all [memRead]
    · split <;> simp [memRead, Ne.symm hx]
  | c :: rest, hm => by
    simp only [memSorted, Bool.and_eq_true, decide_eq_true_eq, bne_iff_ne] at hm
    unfold memInsert
    split
    · next h =>
      by_cases hc : c.1 = x
      · have : x ≠ a := by omega
        simp [memRead, hc, this]
      · simp only [memRead, hc, if_false]
        exact memRead_memInsert a x b hm.2
    · next h =>
      split
      · next he =>
        split
        · next hb =>
          by_cases hx : x = a
          · subst hx
            simp only [if_true, hb]
            exact memRead_of_lt (by omega) hm.2
          · have : c.1 ≠ x := by omega
            simp [memRead, hx, this]
        · next hb =>
          by_cases hx : x = a
          · subst hx; simp [memRead]
          · have h1 : c.1 ≠ x := by omega
            simp [memRead, hx, Ne.symm hx, h1]
      · next he =>
        split
        · next hb =>
          by_cases hx : x = a
          · subst hx
            have h1 : c.1 ≠ x := he
            simp only [if_true, hb, memRead, h1, if_false]
            exact memRead_of_lt (by omega) hm.2
          · simp [hx]
        · next hb =>
          by_cases hx : x = a
          · subst hx; simp [memRead]
          · simp [memRead, hx, Ne.symm hx]

/-- A loaded list of bytes is canonical. -/
theorem memOfBytes_sorted (bs : List Byte) : ∀ a : Nat, memSorted a (memOfBytes a bs) = true := by
  induction bs with
  | nil => intro a; rfl
  | cons b rest ih =>
    intro a
    unfold memOfBytes
    split
    · exact memSorted_mono (by omega) (ih (a + 1))
    · next hb => simpa [memSorted, hb] using ih (a + 1)

/-- The bytes of a loaded program stand below its end. -/
theorem memOfBytes_lt (bs : List Byte) : ∀ a : Nat, ∀ c ∈ memOfBytes a bs, c.1 < a + bs.length := by
  induction bs with
  | nil => intro a c h; cases h
  | cons b rest ih =>
    intro a c h
    unfold memOfBytes at h
    simp only [List.length_cons]
    split at h
    · have := ih (a + 1) c h; omega
    · rcases List.mem_cons.mp h with rfl | h
      · simp
      · have := ih (a + 1) c h; omega

/-- What a loaded list of bytes reads as. -/
theorem memRead_memOfBytes (bs : List Byte) : ∀ a x : Nat, a ≤ x → memRead (memOfBytes a bs) x = (bs[x - a]?).getD memDefault := by
  induction bs with
  | nil => intro a x _; rfl
  | cons b rest ih =>
    intro a x hx
    by_cases h : x = a
    · subst h
      unfold memOfBytes
      split
      · next hb => simpa [hb] using memRead_of_lt (by omega : x < x + 1) (memOfBytes_sorted rest (x + 1))
      · simp [memRead]
    · have e : x - a = (x - (a + 1)) + 1 := by omega
      have hne : a ≠ x := fun e => h e.symm
      rw [e, List.getElem?_cons_succ, ← ih (a + 1) x (by omega)]
      simp only [memOfBytes]
      split
      · rfl
      · simp [memRead, hne]

/-- A write keeps a canonical memory canonical. -/
theorem memInsert_wf (a : Nat) (b : Byte) {m : List Host.Cell} (h : Memory.wf m = true) :
    Memory.wf (memInsert a b m) = true :=
  memInsert_sorted b (Nat.zero_le a) h

/-- A loaded program is canonical. -/
theorem memOfBytes_wf (bs : List Byte) : Memory.wf (memOfBytes 0 bs) = true :=
  memOfBytes_sorted bs 0

/-- Placing one byte keeps the form. -/
theorem State.placeByte_wf (s : State) (a : Nat) (b : Byte) (h : Memory.wf s.mem = true) :
    Memory.wf (s.placeByte a b).mem = true :=
  memInsert_wf a b h

/-- Placing bytes keeps the form. -/
theorem State.placeBytes_wf (bs : List Byte) : ∀ (s : State) (a : Addr), Memory.wf s.mem = true →
    Memory.wf (s.placeBytes a bs).mem = true := by
  induction bs with
  | nil => intro s a h; exact h
  | cons b rest ih => intro s a h; exact ih _ _ (s.placeByte_wf a.toNat b h)

/-- So does placing an instruction where the next step fetches it. -/
theorem State.withFetchWord_wf (s : State) (nbits w : Nat) (h : Memory.wf s.mem = true) :
    Memory.wf (s.withFetchWord nbits w).mem = true :=
  s.placeBytes_wf _ s.pc h

/-- Memory at reset is canonical. -/
theorem reset_memory_wf : Memory.wf State.reset.mem = true := rfl

end Sys2Proof.Machine
end

