-- ==== Sys2Proof/Laws/PerInstr.lean ====
section
/-! SUPPORT. Statements made per instruction: the length of an instruction's encoding (30_encoding R83, R87) and of its
slot (R81). -/

namespace Sys2Proof.Laws.EncodeLength

/-- An instruction encodes to as many bytes as its operation fetches, and its slot is four bytes. -/
def Statement (i : Instr) : Prop :=
  (encode i).length = bytesFetched i.operation ∧ (encodeSlot i).length = 4

theorem hlt : Statement (.hlt) := ⟨rfl, rfl⟩
theorem load (rd : Byte) (imm : Half) : Statement (.load rd imm) := ⟨rfl, rfl⟩
theorem add (rs1 rs2 rd : Byte) : Statement (.add rs1 rs2 rd) := ⟨rfl, rfl⟩
theorem sub (rs1 rs2 rd : Byte) : Statement (.sub rs1 rs2 rd) := ⟨rfl, rfl⟩
theorem mul (rs1 rs2 rd : Byte) : Statement (.mul rs1 rs2 rd) := ⟨rfl, rfl⟩
theorem div (rs1 rs2 rd : Byte) : Statement (.div rs1 rs2 rd) := ⟨rfl, rfl⟩
theorem jmp (rs : Byte) : Statement (.jmp rs) := ⟨rfl, rfl⟩
theorem jmpf (off : Byte) : Statement (.jmpf off) := ⟨rfl, rfl⟩
theorem jmpb (off : Byte) : Statement (.jmpb off) := ⟨rfl, rfl⟩
theorem eq (rs1 rs2 pad : Byte) : Statement (.eq rs1 rs2 pad) := ⟨rfl, rfl⟩
theorem jeq (rs : Byte) : Statement (.jeq rs) := ⟨rfl, rfl⟩
theorem igl (op : Byte) : Statement (.igl op) := ⟨rfl, rfl⟩

end Sys2Proof.Laws.EncodeLength
end

