-- ==== Sys2Proof/Tests/Slice0.lean ====
section
/-! SUPPORT. The model's own tests: ill-formed terms, a word of every constructor written out bit by bit from
30_encoding R83 and R84, the spec's test vectors (95_test_vectors, named in each docstring), and for every statement
with hypotheses a state and operands that meet them. -/

namespace Sys2Proof.Tests

open Sys2Proof.Machine

/-- A program loaded right after reset. -/
def start (bytes : List Byte) : State := State.reset.setProgram bytes

/-- The same at a given `pc`, the program standing there. -/
def startAt (pc : Nat) (bytes : List Byte) : State :=
  (State.reset.placeBytes (BitVec.ofNat 32 pc) bytes).setPc (BitVec.ofNat 32 pc)

/-- What `f` reads in the next state. -/
def look {α : Type} (f : State → α) (o : Result) : Option α := (nextState? o).map f

/-! ## Well-formedness: an ill-formed term for each check -/

theorem test_wf_load : (Instr.load 31 0xFFFF).wf = true ∧ (Instr.load 32 0).wf = false := by decide
theorem test_wf_add : (Instr.add 0 31 31).wf = true ∧ (Instr.add 32 0 0).wf = false ∧ (Instr.add 0 32 0).wf = false ∧
    (Instr.add 0 0 32).wf = false := by decide
theorem test_wf_sub : (Instr.sub 32 0 0).wf = false ∧ (Instr.sub 0 32 0).wf = false ∧ (Instr.sub 0 0 32).wf = false := by
  decide
theorem test_wf_mul : (Instr.mul 32 0 0).wf = false ∧ (Instr.mul 0 32 0).wf = false ∧ (Instr.mul 0 0 32).wf = false := by
  decide
theorem test_wf_div : (Instr.div 32 0 0).wf = false ∧ (Instr.div 0 32 0).wf = false ∧ (Instr.div 0 0 32).wf = false := by
  decide
theorem test_wf_jumps : (Instr.jmp 32).wf = false ∧ (Instr.jeq 255).wf = false ∧ (Instr.jmpf 255).wf = true ∧
    (Instr.jmpb 255).wf = true := by decide
theorem test_wf_eq : (Instr.eq 31 31 255).wf = true ∧ (Instr.eq 32 0 0).wf = false ∧ (Instr.eq 0 32 0).wf = false := by
  decide
theorem test_wf_igl : (Instr.igl 11).wf = true ∧ (Instr.igl 10).wf = false ∧ (Instr.igl 0).wf = false := by decide

/-! ## Decoding: words written out from 30_encoding R83, R84 -/

theorem test_decode_hlt : decode [0b00000000] = .instr .hlt [] := by decide
theorem test_decode_load : decode [0b00000001, 0b00001010, 0b00000001, 0b11110100] = .instr (.load 10 500) [] := by decide
theorem test_decode_add : decode [0b00000010, 0b00000001, 0b00000010, 0b00000011] = .instr (.add 1 2 3) [] := by decide
theorem test_decode_sub : decode [0b00000011, 0b00000000, 0b00000011, 0b00000100] = .instr (.sub 0 3 4) [] := by decide
theorem test_decode_mul : decode [0b00000100, 0b00000010, 0b00000001, 0b00000011] = .instr (.mul 2 1 3) [] := by decide
theorem test_decode_div : decode [0b00000101, 0b00000000, 0b00000001, 0b00011111] = .instr (.div 0 1 31) [] := by decide
theorem test_decode_jmp : decode [0b00000110, 0b00000101, 0b00000000] = .instr (.jmp 5) [0] := by decide
theorem test_decode_jmpf : decode [0b00000111, 0b11111111] = .instr (.jmpf 255) [] := by decide
theorem test_decode_jmpb : decode [0b00001000, 0b00010010, 0b00000000, 0b00000000] = .instr (.jmpb 18) [0, 0] := by decide
theorem test_decode_eq : decode [0b00001001, 0b00000100, 0b00000101, 0b11111111] = .instr (.eq 4 5 255) [] := by decide
theorem test_decode_jeq : decode [0b00001010, 0b00000011] = .instr (.jeq 3) [] := by decide
theorem test_decode_igl_rows : [0b00001011, 0b00001100, 0b00010000, 0b00100000, 0b01000000, 0b10000000, 0b11111111].map
    (fun b => decode [b]) = [11, 12, 16, 32, 64, 128, 255].map (fun b => Decoded.instr (.igl b) []) := by decide
/-- A register byte above 31 decodes: the fault is the instruction's (30_encoding R85, R88). -/
theorem test_decode_illegal_index : decode [0x02, 0x20, 0x01, 0xFF] = .instr (.add 32 1 255) [] := by decide
theorem test_decode_missing : decode [] = .rejected .noBytes ∧ decode [0x09, 0, 1] = .rejected (.truncated .eq 2) := by
  decide
/-- The table's words, opcode byte highest (30_encoding R82). -/
theorem test_table_words : decodeTableWord 32 0x010A01F4 = some (.load 10 500) ∧
    decodeTableWord 32 0x05000102 = some (.div 0 1 2) ∧ decodeTableWord 32 0x0B000000 = some (.igl 11) ∧
    decodeTableWord 8 0xC8 = some (.igl 200) := by decide
/-- 30_encoding R100's bytes of a slot. -/
theorem test_slots : encodeSlot (.jmpb 18) = [8, 18, 0, 0] ∧ encodeSlot .hlt = [0, 0, 0, 0] ∧
    encodeSlot (.load 10 500) = [1, 10, 1, 0xF4] := by decide
/-- 95 P2, address 28. -/
theorem test_asm : asm (.add 4 1 4) = "ADD $4 $1 $4" := by decide

/-! ## The spec's vectors -/

/-- E2, V-HLT-1. -/
theorem test_hlt_at_end : look (fun t => (t.pc, t.runState)) (step (startAt 8 [0])) = some (9, .halted) := by decide
/-- E3. -/
theorem test_igl_200 : look (fun t => (t.pc, t.runState, t.reg 0)) (step (start [0xC8])) = some (1, .halted, 0) := by decide
/-- E4. -/
theorem test_load_500 : look (fun t => (t.reg 10, t.pc, t.runState)) (step (start [1, 10, 1, 244])) =
    some (500, 4, .running) := by decide
/-- V-LOAD-2: zero extension over a register of all ones. -/
theorem test_load_zero_extends : look (fun t => t.reg 0) (step ((start [1, 0, 0x80, 0]).setReg 0 (-1))) = some 32768 := by
  decide
/-- V-ADD-1. -/
theorem test_add_wraps : look (fun t => (t.reg 2).toInt)
    (step (((start [2, 0, 1, 2]).setReg 0 0x7FFFFFFF).setReg 1 1)) = some (-2147483648) := by decide
/-- V-ADD-3: all three indices the same. -/
theorem test_add_same : look (fun t => t.reg 5) (step ((start [2, 5, 5, 5]).setReg 5 21)) = some 42 := by decide
/-- V-SUB-5: first operand minus second. -/
theorem test_sub_order : look (fun t => (t.reg 2).toInt) (step ((start [3, 0, 1, 2]).setReg 1 7)) = some (-7) := by decide
/-- V-SUB-3. -/
theorem test_sub_min : look (fun t => t.reg 2) (step ((start [3, 0, 1, 2]).setReg 1 0x80000000)) = some 0x80000000 := by
  decide
/-- V-MUL-1. -/
theorem test_mul_wraps : look (fun t => (t.reg 2).toInt)
    (step (((start [4, 0, 1, 2]).setReg 0 65535).setReg 1 65535)) = some (-131071) := by decide
/-- V-MUL-5. -/
theorem test_mul_signed : look (fun t => (t.reg 2).toInt)
    (step (((start [4, 0, 1, 2]).setReg 0 123456).setReg 1 (-789))) = some (-97406784) := by decide
/-- V-DIV-2: truncation, and the remainder's sign. -/
theorem test_div_truncates : look (fun t => ((t.reg 2).toInt, t.remainder.toNat))
    (step (((start [5, 0, 1, 2]).setReg 0 (-7)).setReg 1 2)) = some (-3, 4294967295) := by decide
/-- V-DIV-6: the destination is the divisor. -/
theorem test_div_into_divisor : look (fun t => (t.reg 1, t.remainder))
    (step (((start [5, 0, 1, 1]).setReg 0 100).setReg 1 7)) = some (14, 2) := by decide
/-- V-DIV-F1. -/
theorem test_div_by_zero : look (fun t => (t.runState, readFault t, t.remainder, t.reg 2))
    (step ((((start [5, 0, 1, 2]).setReg 0 7)).setRemainder 9)) =
    some (.faulted, some (.divideByZero, 0), 9, 0) := by decide
/-- V-DIV-F2, and the policy that wraps (60_exceptions R205). -/
theorem test_div_overflow :
    divide params 0x80000000 (-1) = .overflow ∧
    divide { params with divOverflow := .wrap } 0x80000000 (-1) = .done 0x80000000 0 := by decide
/-- V-DIV-F4: the destination index is checked before the divisor. -/
theorem test_div_index_first : look readFault (step ((start [5, 0, 1, 0x20]).setReg 0 5)) =
    some (some (.regIndexOutOfRange, 32)) := by decide
/-- V-A-F1: a bad first index is met before a missing fourth byte. -/
theorem test_index_before_missing : look readFault (step (start [2, 0x20, 1])) = some (some (.regIndexOutOfRange, 32)) := by
  decide
/-- V-A-F2. -/
theorem test_missing_byte : look readFault (step (start [2, 0, 1])) = some (some (.pcOverrun, 3)) := by decide
/-- E5. -/
theorem test_jmp_99 : look (fun t => (t.pc, t.runState)) (step ((start [6, 0, 0, 0]).setReg 0 99)) = some (99, .running) := by
  decide
/-- V-JMP-3: a negative target. -/
theorem test_jmp_negative : look (fun t => t.pc.toNat) (step ((start [6, 4]).setReg 4 (-1))) = some 4294967295 := by decide
/-- E6. -/
theorem test_jmpf_10 : look (fun t => t.pc) (step (start [7, 10, 0, 0])) = some 12 := by decide
/-- V-JMPF-2. -/
theorem test_jmpf_255 : look (fun t => t.pc) (step (start [7, 0xFF])) = some 257 := by decide
/-- V-JMPB-7. -/
theorem test_jmpb_255 : look (fun t => t.pc) (step (startAt 300 [8, 0xFF])) = some 47 := by decide
/-- V-JMPB-5: one byte too far. -/
theorem test_jmpb_underflow : look readFault (step (startAt 4 [8, 7, 0, 0])) = some (some (.pcUnderflow, 4)) := by decide
/-- V-EQ-3: the padding byte is ignored. -/
theorem test_eq_true : look (fun t => (t.equalFlag, t.pc)) (step ((start [9, 4, 4, 0xFF]).setReg 4 (-5))) =
    some (true, 4) := by decide
/-- V-EQ-4. -/
theorem test_eq_false : look (fun t => t.equalFlag)
    (step ((((start [9, 0, 1, 0x4D]).setReg 0 (-1)).setReg 1 0x7FFFFFFF).setEqualFlag true)) = some false := by decide
/-- V-JEQ-1. -/
theorem test_jeq_taken : look (fun t => (t.pc, t.equalFlag))
    (step (((startAt 24 [10, 3, 0, 0]).setReg 3 40).setEqualFlag true)) = some (40, true) := by decide
/-- V-JEQ-2, and the parameter's other value (44 R185). -/
theorem test_jeq_not_taken : look (fun t => t.pc) (step ((startAt 24 [10, 3, 0, 0]).setReg 3 40)) = some 28 ∧
    look (fun t => t.pc) (jeqWith { params with jeqNotTakenLen := 5 } 3 (startAt 24 [10, 3, 0, 0])) = some 29 := by decide
/-- V-F-1: no program. -/
theorem test_empty_program : look readFault (step State.reset) = some (some (.pcOverrun, 0)) := by decide
/-- V-HLT-3, V-F-3. -/
theorem test_no_step_after_stop : look (fun t => (t.pc, t.runState)) (step ((start [0, 0]).stop)) = some (1, .halted) := by
  decide
/-- The codes of 60_exceptions R201. -/
theorem test_fault_codes : [FaultKind.pcOverrun, .regIndexOutOfRange, .divideByZero, .divideOverflow, .pcUnderflow].map
    FaultKind.code = [1, 2, 3, 4, 5] := by decide
/-- An instruction placed where the first step after reset fetches it runs. -/
theorem test_withFetchWord : look (fun t => (t.reg 10, t.pc)) (step (State.reset.withFetchWord 32 0x010A01F4)) =
    some (500, 4) := by decide
/-- Writing what an unlisted address reads as removes the entry. -/
theorem test_memory_canonical : memInsert 5 0 (memInsert 5 7 (memInsert 2 9 [])) = [(2, 9)] := by decide

/-! ## Witnesses: for every statement with hypotheses, values that meet all of them, at the ends of their ranges -/

theorem witness_OpcodeByteMap : 11 ≤ (11 : Byte).toNat ∧ 11 ≤ (255 : Byte).toNat := by decide
theorem witness_OperationValuesRoundTrip : (11 : Byte).toNat ≤ 11 ∧ 11 < (12 : Byte).toNat := by decide
theorem witness_DecodeOfEncode : (Instr.div 31 0 31).wf = true ∧ (Instr.igl 11).wf = true ∧ (Instr.load 31 0x8001).wf = true := by
  decide
theorem witness_EncodeOfDecode : decode [1, 255, 0xFF, 0xFE, 7] = .instr (.load 255 0xFFFE) [7] := by decide
theorem witness_RunningStepRunsDecodedInstruction :
    (startAt 99 [9, 31, 0, 5]).runState = .running ∧
    decode (fetchBytes (startAt 99 [9, 31, 0, 5]) (startAt 99 [9, 31, 0, 5]).pc 4) = .instr (.eq 31 0 5) [] := by decide
theorem witness_StoppedCoreTakesNoStep :
    (start [0]).stop.runState ≠ .running ∧ ((start [0]).raised .pcOverrun 0).runState ≠ .running := by decide
theorem witness_StepFollowsThePseudocode : (start [5, 31, 1]).runState = .running := by decide
theorem witness_RunIsRepeatedStep : ∃ t, (start [7, 0, 0]).runState = .running ∧ step (start [7, 0, 0]) = .next t :=
  ⟨_, by decide, rfl⟩
theorem witness_RunEndIsUnique : ∃ t, RunEnds (start [7, 0, 0]) t :=
  ⟨((start [7, 0, 0]).setPc 2).stop, by decide, 2, rfl⟩

/-- A loaded program meets the invariant. -/
theorem start_inv (bytes : List Byte) (h : bytes.length ≤ 2 ^ 31) : (start bytes).Inv :=
  ⟨⟨memOfBytes_wf bytes, by simpa [start] using memOfBytes_lt bytes 0, by simpa [start] using h⟩,
    by simp [start, State.reset], by simp [start, State.reset]⟩

/-- In RUNNING, and at the step that stops the CORE. -/
theorem witness_EveryStepKeepsInvariant : ∃ t, (start [0]).Inv ∧ step (start [0]) = .next t ∧ t.runState = .halted :=
  ⟨_, start_inv [0] (by decide), rfl, by decide⟩
theorem witness_HostRequestsKeepInvariant : ∃ y r y' r',
    Session.Inv ⟨start [0], false⟩ ∧ Session.request ⟨start [0], false⟩ (.loadProgram [1, 2]) = .next (y, r) ∧
    Session.run ⟨start [0], false⟩ 3 = .next (y', r') :=
  ⟨_, _, _, _, ⟨start_inv [0] (by decide), fun _ => rfl⟩, rfl, rfl⟩
theorem witness_HltStopsAfterItsByte :
    (startAt 8 [0]).runState = .running ∧ (startAt 8 [0]).byteAt? (startAt 8 [0]).pc.toNat = some 0 ∧
    State.reset.runState = .running ∧ State.reset.byteAt? State.reset.pc.toNat = none := by decide
theorem witness_IglStopsAfterItsByte :
    (start [11]).runState = .running ∧ (start [11]).byteAt? (start [11]).pc.toNat = some 11 ∧ 11 ≤ (11 : Byte).toNat ∧
    (start [255]).byteAt? (start [255]).pc.toNat = some 255 ∧ 11 ≤ (255 : Byte).toNat := by decide
/-- One program for each branch: whole, the index just too great, and each byte missing. -/
theorem witness_LoadStepIsItsRule :
    [[1, 31, 0xFF, 0xFF], [1, 32, 0, 0], [1], [1, 31], [1, 31, 0]].all (fun p =>
      decide ((start p).runState = .running) && decide ((start p).byteAt? (start p).pc.toNat = some 1)) = true := by decide
theorem witness_LoadWritesZeroExtendedImmediate : (31 : Byte).toNat < 32 := by decide
theorem witness_AddStoresWrappedSum : (31 : Byte).toNat < 32 ∧ (0 : Byte).toNat < 32 := by decide
theorem witness_SubStoresWrappedDifference : (31 : Byte).toNat < 32 ∧ (0 : Byte).toNat < 32 := by decide
theorem witness_MulStoresWrappedProduct : (31 : Byte).toNat < 32 ∧ (0 : Byte).toNat < 32 := by decide
theorem witness_AddSubMulSameBitsUnsigned : (31 : Byte).toNat < 32 ∧ (0 : Byte).toNat < 32 := by decide

/-- A state with two registers set. -/
def withRegs (bytes : List Byte) (a b : Word) : State := ((start bytes).setReg 0 a).setReg 1 b

/-- Next to the two faulting cases: `-2^31 / 1` and `(-2^31 + 1) / -1`. -/
theorem witness_DivStoresQuotientAndRemainder :
    ((withRegs [] 0x80000000 1).reg 0).toInt = -2147483648 ∧ ((withRegs [] 0x80000000 1).reg 1).toInt = 1 ∧
    ((withRegs [] 0x80000001 (-1)).reg 0).toInt = -2147483647 ∧ ((withRegs [] 0x80000001 (-1)).reg 1).toInt = -1 := by decide
theorem witness_DivIdentityHolds : ∃ t, exec (.div 0 1 1) (withRegs [] (-7) 2) = .next t ∧
    (withRegs [] (-7) 2).runState = .running ∧ t.runState = .running ∧
    ((withRegs [] (-7) 2).reg 0).toInt = -7 ∧ ((withRegs [] (-7) 2).reg 1).toInt = 2 ∧ t.remainder.toInt = -1 :=
  ⟨_, rfl, by decide, by decide, by decide, by decide, by decide⟩
theorem witness_DivisionFaults :
    (withRegs [] 7 0).reg ⟨(1 : Byte).toNat, by decide⟩ = 0 ∧
    ((withRegs [] 0x80000000 (-1)).reg ⟨(0 : Byte).toNat, by decide⟩).toInt = -2147483648 ∧
    ((withRegs [] 0x80000000 (-1)).reg ⟨(1 : Byte).toNat, by decide⟩).toInt = -1 ∧ (31 : Byte).toNat < 32 := by decide
theorem witness_JmpSetsPcToRegister : (0 : Byte).toNat < 32 ∧ (31 : Byte).toNat < 32 := by decide
theorem witness_JmpStepIsItsRule :
    [[6, 31], [6, 32], [6]].all (fun p =>
      decide ((start p).runState = .running) && decide ((start p).byteAt? (start p).pc.toNat = some 6)) = true := by decide
theorem witness_JmpfJumpsForward :
    [[7, 255], [7, 0], [7]].all (fun p => decide ((start p).runState = .running) &&
      decide ((start p).byteAt? (start p).pc.toNat = some 7) && decide ((start p).progLen ≤ 2 ^ 31)) = true := by decide
/-- The greatest offset that is subtracted, and the least that faults. -/
theorem witness_JmpbJumpsBackwardOrFaults : (6 : Byte).toNat ≤ ((startAt 4 [8, 6]).pc + 2).toNat ∧
    ((startAt 4 [8, 7]).pc + 2).toNat < (7 : Byte).toNat := by decide
/-- For a jump backward, and a not-taken JEQ at the very end of the program. -/
theorem witness_PcNeverWraps : ∃ t u,
    (start [8, 1]).ProgramOk ∧ (start [8, 1]).runState = .running ∧
    decode (fetchBytes (start [8, 1]) (start [8, 1]).pc 4) = .instr (.jmpb 1) [] ∧
    step (start [8, 1]) = .next t ∧ t.runState ≠ .faulted ∧
    (start [10, 31]).ProgramOk ∧ decode (fetchBytes (start [10, 31]) (start [10, 31]).pc 4) = .instr (.jeq 31) [] ∧
    step (start [10, 31]) = .next u ∧ u.runState ≠ .faulted :=
  ⟨_, _, (start_inv [8, 1] (by decide)).1, by decide, by decide, rfl, by decide, (start_inv [10, 31] (by decide)).1,
    by decide, rfl, by decide⟩
theorem witness_EqComparesAllBits : (0 : Byte).toNat < 32 ∧ (31 : Byte).toNat < 32 := by decide
theorem witness_JeqTakenAndNotTaken : (31 : Byte).toNat < 32 ∧ ((start []).setEqualFlag true).equalFlag = true ∧
    (start []).equalFlag = false := by decide
theorem witness_RegIdxTakesTheWholeByte : (31 : Byte).toNat ≤ 31 ∧ 31 < (32 : Byte).toNat := by decide
theorem witness_IllegalRegisterBytesFault : 31 < (32 : Byte).toNat ∧ 31 < (255 : Byte).toNat ∧ (31 : Byte).toNat ≤ 31 := by
  decide
theorem witness_OpcodeFetchPastEndFaults : ((start [0]).setPc 1).runState = .running ∧
    ((start [0]).setPc 1).progLen ≤ ((start [0]).setPc 1).pc.toNat := by decide
/-- A bad index before a missing byte, and a missing byte after legal ones. -/
theorem witness_OperandFaultsComeInByteOrder :
    fetchBytes (start [2, 31, 32]) ((start [2, 31, 32]).pc + 1) (operandKinds (decodeOp 2)).length = [31, 32] ∧
    (start [2, 31, 32]).byteAt? (start [2, 31, 32]).pc.toNat = some 2 ∧
    ([31, 32] : List Byte)[1]? = some 32 ∧ (operandKinds (decodeOp 2))[1]? = some .regIdx ∧ 31 < (32 : Byte).toNat ∧
    (31 : Byte).toNat ≤ 31 ∧
    fetchBytes (start [9, 31, 31]) ((start [9, 31, 31]).pc + 1) (operandKinds (decodeOp 9)).length = [31, 31] ∧
    (start [9, 31, 31]).byteAt? (start [9, 31, 31]).pc.toNat = some 9 ∧
    ([31, 31] : List Byte).length < (operandKinds (decodeOp 9)).length := by decide
theorem witness_FaultingStepsArePrecise : ∃ t, (start [5, 0, 1, 2]).runState = .running ∧
    step (start [5, 0, 1, 2]) = .next t ∧ t.runState = .faulted :=
  ⟨_, by decide, rfl, by decide⟩
theorem witness_OnlyHltAndIglHalt : ∃ t, (start [11]).runState = .running ∧ step (start [11]) = .next t ∧
    t.runState = .halted :=
  ⟨_, by decide, rfl, by decide⟩
theorem witness_StopCauseReadsTheStoppingByte : ∃ t u,
    (start [0]).runState = .running ∧ (start [0]).byteAt? (start [0]).pc.toNat = some 0 ∧
    step (start [0]) = .next t ∧ t.runState = .halted ∧
    (start [11]).byteAt? (start [11]).pc.toNat = some 11 ∧ step (start [11]) = .next u ∧ u.runState = .halted :=
  ⟨_, _, by decide, by decide, rfl, by decide, by decide, rfl, by decide⟩
theorem witness_OnlyLoadAndAluWriteRegisters : ∃ t, exec (.load 31 1) (start []) = .next t ∧ t.reg 31 ≠ (start []).reg 31 :=
  ⟨_, rfl, by decide⟩
theorem witness_OnlyDivAndEqWriteConditionState : ∃ t u,
    step (withRegs [5, 0, 1, 2] 7 2) = .next t ∧ t.remainder ≠ (withRegs [5, 0, 1, 2] 7 2).remainder ∧
    step (start [9, 0, 1, 0]) = .next u ∧ u.equalFlag ≠ (start [9, 0, 1, 0]).equalFlag :=
  ⟨_, _, rfl, by decide, rfl, by decide⟩
theorem witness_ProgramMemoryNeverChanges : ∃ t, run 2 (start [7, 0, 0]) = .next t := ⟨_, rfl⟩
/-- Two programs that differ after a JMP's two bytes. -/
theorem witness_StepReadsOnlyItsOwnBytes : ∃ t, (start [6, 1, 9]).runState = .running ∧
    (start [6, 1]) = { start [6, 1, 9] with mem := (start [6, 1]).mem, progLen := 2 } ∧
    (start [6, 1]).byteAt? 0 = (start [6, 1, 9]).byteAt? 0 ∧ (start [6, 1]).byteAt? 1 = (start [6, 1, 9]).byteAt? 1 ∧
    bytesFetched (decodeOp 6) = 2 ∧ step (start [6, 1, 9]) = .next t :=
  ⟨_, by decide, by decide, by decide, by decide, by decide, rfl⟩
theorem witness_FrameOfStops : ∃ t u, exec .hlt (start []) = .next t ∧ exec (.igl 255) (start []) = .next u :=
  ⟨_, _, rfl, rfl⟩
/-- Completing and faulting. -/
theorem witness_FrameOfLoadAddSubMul : ∃ t u, exec (.mul 31 0 31) (start []) = .next t ∧ t.runState = .running ∧
    exec (.load 32 0) (start []) = .next u ∧ u.runState = .faulted :=
  ⟨_, _, rfl, by decide, rfl, by decide⟩
theorem witness_FrameOfDiv : ∃ t u, exec (.div 0 1 31) (withRegs [] 7 2) = .next t ∧ t.runState = .running ∧
    exec (.div 0 1 31) (withRegs [] 7 0) = .next u ∧ u.runState = .faulted :=
  ⟨_, _, rfl, by decide, rfl, by decide⟩
theorem witness_FrameOfJumps : ∃ t u, exec (.jmpb 2) (start []) = .next t ∧ t.runState = .running ∧
    exec (.jmpb 3) (start []) = .next u ∧ u.runState = .faulted :=
  ⟨_, _, rfl, by decide, rfl, by decide⟩
theorem witness_FrameOfEq : ∃ t u, exec (.eq 31 0 255) (start []) = .next t ∧ t.runState = .running ∧
    exec (.eq 31 32 0) (start []) = .next u ∧ u.runState = .faulted :=
  ⟨_, _, rfl, by decide, rfl, by decide⟩
theorem witness_CanonicalMemoryIsItsBytes : Memory.wf [(0, 1), (4, 255)] = true ∧ Memory.wf [(4, 1), (0, 255)] = false ∧
    Memory.wf [(0, 0)] = false := by decide
theorem witness_LoadProgramThenRead : Session.start.stepped = false ∧ ([1, 0, 0, 5] : List Byte).length ≤ 2 ^ 31 := by decide
theorem witness_MeaninglessHostMovesAreRefused :
    (⟨start [0], true⟩ : Session).stepped = true ∧ Session.start.stepped = false ∧
    2 ^ 31 < (List.replicate (2 ^ 31 + 1) (0 : Byte)).length ∧ (start [0]).stop.runState ≠ .running :=
  ⟨rfl, rfl, by rw [List.length_replicate]; omega, by decide⟩
theorem witness_PokeRegWritesOneRegister : Session.start.core.runState = .running := by decide
theorem witness_ReadsChangeNothing : ((start []).raised .pcOverrun 0).runState = .faulted ∧
    ((start []).raised .pcOverrun 0).faultKind = some .pcOverrun := by decide
theorem witness_StepRequestReports : ∃ t u, step (start [7, 0]) = .next t ∧ t.runState = .running ∧
    step (start [0]) = .next u ∧ u.runState = .halted :=
  ⟨_, _, rfl, by decide, rfl, by decide⟩

end Sys2Proof.Tests
end

section
/-! The state after reset (10_state section 6). -/

namespace Sys2Proof.Machine

/-- At or beyond `PROGRAM_LEN` no byte exists (20_memory R50). -/
theorem State.byteAt_eq_none_of_progLen_le {s : State} {a : Nat} (h : s.progLen ≤ a) : s.byteAt? a = none :=
  Option.eq_none_iff_forall_ne_some.mpr fun _ hb => absurd (State.byteAt_lt hb) (Nat.not_lt.mpr h)

/-- Program memory is empty at reset (10_state R37). -/
@[simp] theorem State.reset_byteAt (a : Nat) : State.reset.byteAt? a = none :=
  State.byteAt_eq_none_of_progLen_le (Nat.zero_le a)

/-- Settles O1: the registers and the bytes by their laws at reset, the other fields as `State.reset` gives them. -/
theorem resetLeavesRegistersPcAndProgram : Obligations.ResetLeavesRegistersPcAndProgram :=
  ⟨State.reset_reg, rfl, rfl, rfl, State.reset_byteAt⟩

end Sys2Proof.Machine
end

section
/-! The encoding's operand rules (30_encoding R85, R88, R89). -/

namespace Sys2Proof

/-- Every opcode byte above 10 is an illegal instruction (30_encoding R85). -/
theorem decodeOp_of_ge {b : Byte} (h : 11 ≤ b.toNat) : decodeOp b = .igl := by
  obtain ⟨n, hn⟩ := Nat.exists_eq_add_of_le' h
  simp only [decodeOp, hn]

/-- Settles O4: the eleven named bytes by evaluation, all others by `decodeOp_of_ge`. -/
theorem opcodeByteMap : Obligations.OpcodeByteMap :=
  ⟨by decide, fun _ => decodeOp_of_ge⟩

end Sys2Proof

namespace Sys2Proof.Machine

/-- The zero-extended immediate is its unsigned value, also read as an `i32` (30_encoding R89). -/
theorem zextImm_toInt (imm : Half) : (zextImm imm).toInt = imm.toNat := by
  have hval : (zextImm imm).toNat = imm.toNat := BitVec.toNat_setWidth_of_le (by decide)
  have hsmall := imm.isLt
  rw [BitVec.toInt_eq_toNat_of_lt (by omega), hval]

/-- LOAD into a register that exists (41_load R131). -/
theorem exec_load_of_lt {rd : Byte} (h : rd.toNat < 32) (imm : Half) (s : State) :
    exec (.load rd imm) s = .next ((s.setReg ⟨rd.toNat, h⟩ (zextImm imm)).advance 4) :=
  withReg_of_lt h s _

/-- Settles O23: the immediate is `immOf hi lo`, and the value written is its zero extension. -/
theorem loadWritesZeroExtendedImmediate : Obligations.LoadWritesZeroExtendedImmediate := by
  intro rd hi lo rest
  refine ⟨immOf hi lo, rfl, immOf_toNat hi lo, fun s h => ⟨zextImm (immOf hi lo), ?_, exec_load_of_lt h _ s⟩⟩
  simp [zextImm_toInt, immOf_toNat]

/-- Settles O39: a byte of at most 31 by `withReg_of_lt`, a greater one by `withReg_of_ge`. -/
theorem regIdxTakesTheWholeByte : Obligations.RegIdxTakesTheWholeByte :=
  ⟨fun b s k h => ⟨⟨b.toNat, Nat.lt_succ_of_le h⟩, rfl, withReg_of_lt _ s k⟩,
    fun _ s k h => withReg_of_ge (Nat.not_lt.mpr h) s k⟩

end Sys2Proof.Machine
end

section
/-! One step and how it stops (40_cycle_halt R110, R116, R117). -/

namespace Sys2Proof.Machine

/-- A RUNNING step executes the instruction it fetches (40 R110). -/
theorem step_of_fetchInstr_instr {s : State} {i : Instr} (h : s.runState = .running) (hf : fetchInstr s = .instr i) :
    step s = exec i s := by
  simp only [step, h, stepRunning, hf]

/-- A RUNNING step raises the fault its fetch comes to (40 R110). -/
theorem step_of_fetchInstr_raised {s : State} {k : FaultKind} {info : Word} (h : s.runState = .running)
    (hf : fetchInstr s = .raised k info) : step s = raise k info s := by
  simp only [step, h, stepRunning, hf]

/-- HLT is fetched from its opcode byte alone: the padding of its slot need not exist (40 R116). -/
theorem fetchInstr_of_decodeOp_hlt {s : State} {b : Byte} (hb : fetchByte? s s.pc = some b) (hop : decodeOp b = .hlt) :
    fetchInstr s = .instr .hlt := by
  rw [fetchInstr_of_some hb, hop]
  rfl

/-- IGL is fetched from its opcode byte alone, whatever bytes follow (40 R117). -/
theorem fetchInstr_of_decodeOp_igl {s : State} {b : Byte} (hb : fetchByte? s s.pc = some b) (hop : decodeOp b = .igl) :
    fetchInstr s = .instr (.igl b) := by
  rw [fetchInstr_of_some hb, hop]
  rfl

/-- Settles O20: HLT is fetched from the byte 0 alone, and without an opcode byte the fetch itself faults. -/
theorem hltStopsAfterItsByte : Obligations.HltStopsAfterItsByte :=
  ⟨fun _ => rfl,
    fun _ hrun hb => step_of_fetchInstr_instr hrun (fetchInstr_of_decodeOp_hlt hb rfl),
    fun _ hrun hb => step_of_fetchInstr_raised hrun (fetchInstr_of_none hb)⟩

/-- Settles O21: every byte of 11 or more is fetched as IGL by itself, and IGL does not look at which byte it was. -/
theorem iglStopsAfterItsByte : Obligations.IglStopsAfterItsByte :=
  ⟨fun _ _ => rfl,
    fun _ _ hrun hb hge => step_of_fetchInstr_instr hrun (fetchInstr_of_decodeOp_igl hb (decodeOp_of_ge hge))⟩

end Sys2Proof.Machine
end

section
/-! Decoding and encoding: the operation values, the two round trips, and what the decoder refuses
(30_encoding R83 to R87). -/

namespace Sys2Proof

/-- A byte up to 11 is the value of the operation it decodes to (30_encoding R86). -/
theorem encodeOp_decodeOp_of_le {b : Byte} (h : b.toNat ≤ 11) : encodeOp (decodeOp b) = b := by
  have hvalue : ∀ n : Fin 12, encodeOp (decodeOp (BitVec.ofNat 8 n)) = BitVec.ofNat 8 n := by decide
  simpa using hvalue ⟨b.toNat, by omega⟩

/-- Settles O5: the twelve operations and the bytes up to 11 by evaluation, the bytes above by `decodeOp_of_ge`. -/
theorem operationValuesRoundTrip : Obligations.OperationValuesRoundTrip :=
  ⟨fun op => by cases op <;> rfl, fun _ => encodeOp_decodeOp_of_le,
    fun b h => by rw [decodeOp_of_ge (by omega : 11 ≤ b.toNat)]; rfl⟩

/-- Settles O7. -/
theorem specWordsDecode : Obligations.SpecWordsDecode := by
  unfold Obligations.SpecWordsDecode
  decide

/-- A byte of a named operation is that operation's value (30_encoding R84). -/
theorem eq_encodeOp_of_decodeOp {b : Byte} (h : decodeOp b ≠ .igl) : b = encodeOp (decodeOp b) := by
  by_cases hle : b.toNat ≤ 11
  · exact (encodeOp_decodeOp_of_le hle).symm
  · exact absurd (decodeOp_of_ge (by omega)) h

/-- A byte is read as an illegal instruction only if it is above 10 (30_encoding R84). -/
theorem decodeOp_eq_igl {b : Byte} : decodeOp b = .igl ↔ 11 ≤ b.toNat := by
  refine ⟨fun h => ?_, decodeOp_of_ge⟩
  by_contra hlt
  have hb := encodeOp_decodeOp_of_le (b := b) (by omega)
  rw [h] at hb
  simp [← hb, encodeOp] at hlt

/-- The opcode byte of a well-formed instruction decodes to its operation. -/
theorem decodeOp_opcodeByte {i : Instr} (h : i.wf = true) : decodeOp (opcodeByte i) = i.operation := by
  cases i with
  | igl op => exact decodeOp_of_ge (b := op) (by simpa [Instr.wf, iglByteOk] using h)
  | _ => rfl

/-- The operand bytes of an instruction are read back as its operands. -/
theorem decodeOperands_operandBytes (i : Instr) (rest : List Byte) :
    decodeOperands i.operation (opcodeByte i) (operandBytes i ++ rest) = .instr i rest := by
  cases i with
  | load rd imm => simp [Instr.operation, operandBytes, decodeOperands, immOf_bytes]
  | _ => rfl

/-- Settles O8: the opcode byte gives the operation back, and the operand bytes the operands. -/
theorem decodeOfEncode : Obligations.DecodeOfEncode := by
  intro i rest hwf
  simp only [encode, List.cons_append, decode, decodeOp_opcodeByte hwf, decodeOperands_operandBytes]

/-- The operands read are the very bytes they were read from. -/
theorem operandBytes_of_decodeOperands {op : Operation} {b0 : Byte} {bs rest : List Byte} {i : Instr}
    (h : decodeOperands op b0 bs = .instr i rest) : operandBytes i ++ rest = bs := by
  rcases bs with _ | ⟨b1, _ | ⟨b2, _ | ⟨b3, bs⟩⟩⟩ <;> cases op <;> cases h <;>
    simp [operandBytes, immOf_hi, immOf_lo]

/-- The opcode byte of the instruction read is the byte it was read from; of IGL it is kept as an operand. -/
theorem opcodeByte_of_decodeOperands {b0 : Byte} {bs rest : List Byte} {i : Instr}
    (h : decodeOperands (decodeOp b0) b0 bs = .instr i rest) : opcodeByte i = b0 := by
  by_cases hop : decodeOp b0 = .igl
  · rw [hop] at h
    cases h
    rfl
  · have hi := decodeOperands_operation h
    have hbyte : opcodeByte i = encodeOp i.operation := by
      cases i with
      | igl op => exact absurd hi.symm hop
      | _ => rfl
    rw [hbyte, hi]
    exact (eq_encodeOp_of_decodeOp hop).symm

/-- Settles O9: the opcode byte and the operand bytes are each the bytes they were read from. -/
theorem encodeOfDecode : Obligations.EncodeOfDecode := by
  intro bs i rest h
  cases bs with
  | nil => cases h
  | cons b0 bs =>
    rw [encode, opcodeByte_of_decodeOperands h, List.cons_append, operandBytes_of_decodeOperands h]

/-- The operands are refused exactly where a byte is missing. -/
theorem decodeOperands_rejected_iff {op : Operation} {b0 : Byte} {bs : List Byte} :
    (∃ r, decodeOperands op b0 bs = .rejected r) ↔ bs.length < bytesFetched op - 1 := by
  constructor
  · rintro ⟨r, h⟩
    rcases bs with _ | ⟨b1, _ | ⟨b2, _ | ⟨b3, bs⟩⟩⟩ <;> cases op <;> cases h <;> simp [bytesFetched]
  · intro h
    cases hd : decodeOperands op b0 bs with
    | instr i rest => exact absurd h (Nat.not_lt.mpr (decodeOperands_instr_length hd))
    | rejected r => exact ⟨r, rfl⟩

/-- Every operation fetches its opcode byte. -/
theorem bytesFetched_pos (op : Operation) : 0 < bytesFetched op := by
  cases op <;> decide

/-- Settles O10: without an opcode byte by evaluation, with one by the operand bytes it calls for. -/
theorem decodeRefusesOnlyMissingBytes : Obligations.DecodeRefusesOnlyMissingBytes := by
  intro bs
  cases bs with
  | nil => simp [decode]
  | cons b0 bs =>
    have hpos := bytesFetched_pos (decodeOp b0)
    have hlen : bs.length < bytesFetched (decodeOp b0) - 1 ↔ bs.length + 1 < bytesFetched (decodeOp b0) := by omega
    simpa [decode, hlen] using decodeOperands_rejected_iff (op := decodeOp b0) (b0 := b0) (bs := bs)

end Sys2Proof
end

section
/-! The opcode table (30_encoding R94): its rows look at the opcode byte alone. -/

namespace Sys2Proof

/-- Whether a row applies to a slot whose opcode byte is `b`. -/
def OpcodeRow.appliesToOpcode (b : Byte) (row : OpcodeRow) : Bool :=
  b &&& row.mask.extractLsb' 24 8 == row.pattern.extractLsb' 24 8

/-- Masks and patterns of the table lie within the opcode byte. -/
theorem opcodeTable_within_top : ∀ row ∈ opcodeTable,
    row.mask = (row.mask.extractLsb' 24 8).setWidth 32 <<< 24 ∧
    row.pattern = (row.pattern.extractLsb' 24 8).setWidth 32 <<< 24 := by decide

/-- So which rows apply to a slot word depends on its opcode byte alone. -/
theorem rowApplies_slotWord (b0 b1 b2 b3 : Byte) {row : OpcodeRow} (h : row ∈ opcodeTable) :
    rowApplies (slotWord b0 b1 b2 b3) row = row.appliesToOpcode b0 := by
  obtain ⟨hmask, hpattern⟩ := opcodeTable_within_top row h
  have htop := and_mask_top (slotWord b0 b1 b2 b3) (row.mask.extractLsb' 24 8) (row.pattern.extractLsb' 24 8)
  rw [← hmask, ← hpattern, slotWord_top] at htop
  rw [Bool.eq_iff_iff]
  simpa [rowApplies, OpcodeRow.appliesToOpcode] using htop

/-- For each of the 256 opcode bytes one row applies. -/
theorem opcodeTable_filter_appliesToOpcode :
    ∀ b : Byte, (opcodeTable.filter (·.appliesToOpcode b)).map (·.op) = [decodeOp b] := by
  decide

/-- Settles O6: the other bytes of the slot play no part, and the 256 opcode bytes are evaluated. -/
theorem slotWordMatchesExactlyOneTableRow : Obligations.SlotWordMatchesExactlyOneTableRow := by
  intro b0 b1 b2 b3
  rw [List.filter_congr fun row h => rowApplies_slotWord b0 b1 b2 b3 h]
  exact opcodeTable_filter_appliesToOpcode b0

end Sys2Proof
end

section
/-! Reset leaves the condition state and the invariant as the spec gives them (10_state section 6, 70 section 1). -/

namespace Sys2Proof.Machine

/-- Settles O2. -/
theorem resetLeavesConditionState : Obligations.ResetLeavesConditionState := ⟨rfl, rfl, rfl, rfl⟩

/-- Settles O3. -/
theorem hostResetFromAnyState : Obligations.HostResetFromAnyState := fun _ => rfl

/-- A RUNNING state tells its stop state right: it has none. -/
theorem State.stopOk_of_running {s : State} (h : s.runState = .running) : s.StopOk := by
  simp [State.StopOk, h]

/-- A session right after a reset, the model's own count being any, meets the invariant. -/
theorem hostReset_inv (s : State) : Session.Inv ⟨hostReset s, false⟩ :=
  have hprogram : (hostReset s).ProgramOk := ⟨reset_memory_wf, fun _ h => absurd h List.not_mem_nil, Nat.zero_le _⟩
  ⟨⟨hprogram, State.stopOk_of_running rfl⟩, fun _ => rfl⟩

/-- Settles O17: after reset no byte is listed and the CORE is RUNNING. -/
theorem resetMeetsInvariant : Obligations.ResetMeetsInvariant :=
  ⟨(hostReset_inv State.reset).1, hostReset_inv State.reset⟩

end Sys2Proof.Machine
end

section
/-! Runs and steps as a whole: what one step can do, what it leaves, and the invariant (40_cycle_halt R110 to R115). -/

namespace Sys2Proof.Machine

/-! ## What one step of a RUNNING CORE can do -/

/-- An instruction fetched is one of the operation its opcode byte decodes to. -/
theorem fetchInstr_opcode {s : State} {i : Instr} (h : fetchInstr s = .instr i) :
    ∃ b, s.byteAt? s.pc.toNat = some b ∧ decodeOp b = i.operation := by
  obtain ⟨rest, hd⟩ := fetchInstr_instr h
  cases hb : fetchByte? s s.pc with
  | none => rw [instrBytes_eq_nil.mpr hb] at hd; cases hd
  | some b =>
    simp only [instrBytes, hb, decode] at hd
    exact ⟨b, hb, (decodeOperands_operation hd).symm⟩

/-- A step of a RUNNING CORE raises the fault of its fetch, or executes the instruction of its opcode byte. -/
theorem step_next_cases {s t : State} (hrun : s.runState = .running) (h : step s = .next t) :
    (∃ k info, t = s.raised k info) ∨
    ∃ i b, exec i s = .next t ∧ s.byteAt? s.pc.toNat = some b ∧ decodeOp b = i.operation := by
  rcases step_running hrun with ⟨i, hf, hs⟩ | ⟨k, info, _, hs⟩
  · obtain ⟨b, hb, hop⟩ := fetchInstr_opcode hf
    exact .inr ⟨i, b, hs.symm.trans h, hb, hop⟩
  · cases hs.symm.trans h
    exact .inl ⟨k, info, rfl⟩

/-- So it stops at an HLT or IGL byte, faults, or changes at most registers, `pc`, `remainder` and `equal_flag`. -/
theorem step_cases {s t : State} (hrun : s.runState = .running) (h : step s = .next t) :
    (t = s.stop ∧ ∃ b, s.byteAt? s.pc.toNat = some b ∧ (decodeOp b = .hlt ∨ decodeOp b = .igl)) ∨
    (∃ k info, t = s.raised k info) ∨ s.DataStep t := by
  rcases step_next_cases hrun h with hfault | ⟨i, b, he, hb, hop⟩
  · exact .inr (.inl hfault)
  · rcases exec_cases he with ⟨ht, hi⟩ | hrest
    · exact .inl ⟨ht, b, hb, hop ▸ hi⟩
    · exact .inr hrest

/-- A step of a CORE that is not RUNNING changes nothing (40 R112). -/
theorem step_of_not_running {s : State} (h : s.runState ≠ .running) : step s = .next s := by
  unfold step
  cases hr : s.runState with
  | running => exact absurd hr h
  | halted => rfl
  | faulted => rfl

/-- So does a run (40 R113). -/
theorem run_of_not_running {s : State} (h : s.runState ≠ .running) (fuel : Nat) : run fuel s = .next s := by
  cases fuel with
  | zero => rfl
  | succ n =>
    unfold run
    cases hr : s.runState with
    | running => exact absurd hr h
    | halted => rfl
    | faulted => rfl

/-- Settles O12. -/
theorem stoppedCoreTakesNoStep : Obligations.StoppedCoreTakesNoStep :=
  fun _ h => ⟨step_of_not_running h, run_of_not_running h⟩

/-! ## A step always answers -/

/-- A register operand answers a next state where what comes after it does. -/
theorem withReg_answers {b : Byte} {s : State} {k : Reg → Result} (hk : ∀ r, ∃ t, k r = .next t) :
    ∃ t, withReg b s k = .next t := by
  by_cases hb : b.toNat < 32
  · rw [withReg_of_lt hb]; exact hk _
  · rw [withReg_of_ge hb]; exact ⟨_, rfl⟩

/-- So do the operands of format A. -/
theorem withOperandsA_answers {rs1 rs2 rd : Byte} {s : State} {k : Word → Word → Reg → Result}
    (hk : ∀ a b d, ∃ t, k a b d = .next t) : ∃ t, withOperandsA rs1 rs2 rd s k = .next t :=
  withReg_answers fun _ => withReg_answers fun _ => withReg_answers fun _ => hk _ _ _

/-- So does the end of DIV. -/
theorem storeDivision_answers (o : DivOutcome) (d : Reg) (s : State) : ∃ t, storeDivision o d s = .next t := by
  cases o <;> exact ⟨_, rfl⟩

/-- No instruction ends without a next state, under this machine's parameters. -/
theorem exec_answers (i : Instr) (s : State) : ∃ t, exec i s = .next t := by
  cases i with
  | hlt => exact ⟨_, rfl⟩
  | igl op => exact ⟨_, rfl⟩
  | load rd imm => exact withReg_answers fun _ => ⟨_, rfl⟩
  | add rs1 rs2 rd => exact withOperandsA_answers fun a b d => ⟨_, storeExact_params (a.toInt + b.toInt) d s⟩
  | sub rs1 rs2 rd => exact withOperandsA_answers fun a b d => ⟨_, storeExact_params (a.toInt - b.toInt) d s⟩
  | mul rs1 rs2 rd => exact withOperandsA_answers fun a b d => ⟨_, storeExact_params (a.toInt * b.toInt) d s⟩
  | div rs1 rs2 rd => exact withOperandsA_answers fun a b d => storeDivision_answers (divide params a b) d s
  | jmp rs => exact withReg_answers fun _ => ⟨_, rfl⟩
  | jmpf off => exact ⟨_, rfl⟩
  | jmpb off =>
    simp only [exec, execJmpb, jmpbWith]
    split <;> exact ⟨_, rfl⟩
  | eq rs1 rs2 pad => exact withReg_answers fun _ => withReg_answers fun _ => ⟨_, rfl⟩
  | jeq rs =>
    refine withReg_answers fun _ => ?_
    split <;> exact ⟨_, rfl⟩

/-- Settles O14: a stopped CORE answers itself, a RUNNING one its instruction's answer or the state a fault leaves. -/
theorem everyStepAnswersANextState : Obligations.EveryStepAnswersANextState := by
  intro s
  by_cases hrun : s.runState = .running
  · rcases step_running hrun with ⟨i, _, hs⟩ | ⟨k, info, _, hs⟩
    · rw [hs]; exact exec_answers i s
    · exact ⟨_, hs⟩
  · exact ⟨s, step_of_not_running hrun⟩

/-! ## Runs -/

/-- One step of a run is a step. -/
theorem run_succ_of_step {s t : State} (fuel : Nat) (hrun : s.runState = .running) (h : step s = .next t) :
    run (fuel + 1) s = run fuel t := by
  simp only [run, hrun, h]

/-- Settles O15. -/
theorem runIsRepeatedStep : Obligations.RunIsRepeatedStep := fun _ _ fuel => run_succ_of_step fuel

/-- What every step keeps, every run keeps. -/
theorem run_induction {P : State → Prop} (hstep : ∀ s t, P s → step s = .next t → P t) :
    ∀ (fuel : Nat) {s t : State}, P s → run fuel s = .next t → P t
  | 0, _, _, hs, h => by cases h; exact hs
  | fuel + 1, s, t, hs, h => by
    by_cases hrun : s.runState = .running
    · obtain ⟨u, hu⟩ := everyStepAnswersANextState s
      rw [run_succ_of_step fuel hrun hu] at h
      exact run_induction hstep fuel (hstep s u hs hu) h
    · rw [run_of_not_running hrun] at h
      cases h
      exact hs

/-- More fuel changes nothing about a run that has ended. -/
theorem run_of_le {t : State} (ht : t.runState ≠ .running) :
    ∀ {fuel fuel' : Nat} {s : State}, fuel ≤ fuel' → run fuel s = .next t → run fuel' s = .next t
  | 0, fuel', s, _, h => by cases h; exact run_of_not_running ht fuel'
  | fuel + 1, 0, _, hle, _ => absurd hle (by omega)
  | fuel + 1, fuel' + 1, s, hle, h => by
    by_cases hrun : s.runState = .running
    · obtain ⟨u, hu⟩ := everyStepAnswersANextState s
      rw [run_succ_of_step _ hrun hu] at h ⊢
      exact run_of_le ht (by omega) h
    · rw [run_of_not_running hrun] at h ⊢
      exact h

/-- Settles O16: both runs end the same way under the greater of the two amounts of fuel. -/
theorem runEndIsUnique : Obligations.RunEndIsUnique := by
  rintro s t u ⟨ht, n, hn⟩ ⟨hu, m, hm⟩
  have htu := (run_of_le ht (le_max_left n m) hn).symm.trans (run_of_le hu (le_max_right n m) hm)
  cases htu
  rfl

/-! ## Program memory and the invariant -/

/-- No step changes program memory or its length (20_memory R52). -/
theorem step_program {s t : State} (h : step s = .next t) : t.mem = s.mem ∧ t.progLen = s.progLen := by
  by_cases hrun : s.runState = .running
  · rcases step_cases hrun h with ⟨rfl, _⟩ | ⟨_, _, rfl⟩ | ⟨_, _, _, _, rfl⟩ <;> exact ⟨rfl, rfl⟩
  · cases (step_of_not_running hrun).symm.trans h
    exact ⟨rfl, rfl⟩

/-- Settles O48: every step keeps both, so every run does. -/
theorem programMemoryNeverChanges : Obligations.ProgramMemoryNeverChanges := by
  intro s t fuel
  refine run_induction (P := fun u => u.mem = s.mem ∧ u.progLen = s.progLen) ?_ fuel ⟨rfl, rfl⟩
  rintro u v ⟨hmem, hlen⟩ h
  obtain ⟨hmem', hlen'⟩ := step_program h
  exact ⟨hmem'.trans hmem, hlen'.trans hlen⟩

/-- States with the same program memory have their bounds in common. -/
theorem State.ProgramOk.of_program_eq {s t : State} (h : s.ProgramOk) (hp : t.mem = s.mem ∧ t.progLen = s.progLen) :
    t.ProgramOk := by
  simpa only [State.ProgramOk, hp.1, hp.2] using h

/-- The byte before the `pc` of a stop is the byte that was at `pc` (10_state R35). -/
theorem State.byteAt_before_stop (s : State) : s.stop.byteAt? (s.stop.pc - 1).toNat = s.byteAt? s.pc.toNat := by
  have hpc : s.pc + 1 - 1 = s.pc := BitVec.add_sub_cancel s.pc 1
  rw [State.stop_byteAt, State.stop_pc, hpc]

/-- Just after an HLT or IGL byte a stop is told right. -/
theorem State.stop_stopOk {s : State} {b : Byte} (hb : s.byteAt? s.pc.toNat = some b)
    (hop : decodeOp b = .hlt ∨ decodeOp b = .igl) : s.stop.StopOk := by
  refine ⟨nofun, fun _ => ⟨b, ?_, hop⟩⟩
  rw [s.byteAt_before_stop, hb]

/-- A fault latches its kind. -/
theorem State.raised_stopOk (s : State) (k : FaultKind) (info : Word) : (s.raised k info).StopOk :=
  ⟨fun _ => Option.some_ne_none k, nofun⟩

/-- Every step tells the stop state right. -/
theorem step_stopOk {s t : State} (hs : s.StopOk) (h : step s = .next t) : t.StopOk := by
  by_cases hrun : s.runState = .running
  · rcases step_cases hrun h with ⟨rfl, b, hb, hop⟩ | ⟨k, info, rfl⟩ | ⟨_, _, _, _, rfl⟩
    · exact State.stop_stopOk hb hop
    · exact s.raised_stopOk k info
    · exact State.stopOk_of_running hrun
  · cases (step_of_not_running hrun).symm.trans h
    exact hs

/-- Settles O18: the program is untouched, and a stop or a fault is told right. -/
theorem everyStepKeepsInvariant : Obligations.EveryStepKeepsInvariant :=
  fun _ _ hs h => ⟨hs.1.of_program_eq (step_program h), step_stopOk hs.2 h⟩

/-- A program within the bound that a host loads meets the bounds of program memory. -/
theorem State.setProgram_programOk (s : State) {bytes : List Byte} (h : bytes.length ≤ params.maxProgramLen) :
    (s.setProgram bytes).ProgramOk :=
  ⟨memOfBytes_wf bytes, by simpa using memOfBytes_lt bytes 0, h⟩

/-- `load_program` before the first step keeps the session's invariant. -/
theorem Session.loadProgram_inv {x y : Session} {bytes : List Byte} {r : HostReply} (hx : x.Inv)
    (h : x.loadProgram bytes = .next (y, r)) : y.Inv := by
  unfold Session.loadProgram at h
  split at h
  · cases h
  · next hfresh =>
    have hrun := hx.2 (by simpa using hfresh)
    split at h <;> cases h
    next hlen => exact ⟨⟨x.core.setProgram_programOk (by omega), State.stopOk_of_running hrun⟩, fun _ => hrun⟩

/-- `poke_reg` keeps it: it touches a register of a RUNNING CORE. -/
theorem Session.pokeReg_inv {x y : Session} {i : Reg} {v : Word} {r : HostReply} (hx : x.Inv)
    (h : x.pokeReg i v = .next (y, r)) : y.Inv := by
  unfold Session.pokeReg at h
  split at h <;> cases h
  exact hx

/-- A step request keeps it. -/
theorem Session.step_inv {x y : Session} {r : HostReply} (hx : x.Inv) (h : x.step = .next (y, r)) : y.Inv := by
  unfold Session.step at h
  split at h <;> cases h
  next t ht => exact ⟨everyStepKeepsInvariant _ _ hx.1 ht, fun hf => by cases hf⟩

/-- So does a run. -/
theorem Session.run_inv {x y : Session} {fuel : Nat} {r : HostReply} (hx : x.Inv) (h : x.run fuel = .next (y, r)) :
    y.Inv := by
  unfold Session.run at h
  split at h <;> cases h
  next t ht => exact ⟨run_induction everyStepKeepsInvariant fuel hx.1 ht, fun hf => by cases hf⟩

/-- Settles O19: one lemma for each transaction that changes the session; the reads answer it as it is. -/
theorem hostRequestsKeepInvariant : Obligations.HostRequestsKeepInvariant := by
  refine ⟨fun x y q r hx h => ?_, fun x y fuel r => Session.run_inv⟩
  cases q with
  | reset => cases h; exact hostReset_inv x.core
  | loadProgram bytes => exact Session.loadProgram_inv hx h
  | step => exact Session.step_inv hx h
  | pokeReg i v => exact Session.pokeReg_inv hx h
  | _ => cases h; exact hx

/-! ## Faults, stops and who writes what -/

/-- A step into FAULTED raised a fault. -/
theorem step_faulted {s t : State} (hrun : s.runState = .running) (h : step s = .next t) (ht : t.runState = .faulted) :
    ∃ k info, t = s.raised k info := by
  rcases step_cases hrun h with ⟨rfl, _⟩ | hfault | ⟨_, _, _, _, rfl⟩
  · cases ht
  · exact hfault
  · cases hrun.symm.trans ht

/-- Settles O43: a fault writes nothing but the stop state and `pc`. -/
theorem faultingStepsArePrecise : Obligations.FaultingStepsArePrecise := by
  intro s t hrun h ht
  obtain ⟨k, info, rfl⟩ := step_faulted hrun h ht
  exact ⟨fun _ => rfl, rfl, rfl, fun _ => rfl, k, rfl⟩

/-- A step into HALTED stopped at an HLT or IGL byte. -/
theorem step_halted {s t : State} (hrun : s.runState = .running) (h : step s = .next t) (ht : t.runState = .halted) :
    t = s.stop ∧ ∃ b, s.byteAt? s.pc.toNat = some b ∧ (decodeOp b = .hlt ∨ decodeOp b = .igl) := by
  rcases step_cases hrun h with hstop | ⟨_, _, rfl⟩ | ⟨_, _, _, _, rfl⟩
  · exact hstop
  · cases ht
  · cases hrun.symm.trans ht

/-- Settles O44: the byte of HLT is 0, those of IGL are 11 and above. -/
theorem onlyHltAndIglHalt : Obligations.OnlyHltAndIglHalt := by
  intro s t hrun h ht
  obtain ⟨rfl, b, hb, hop⟩ := step_halted hrun h ht
  refine ⟨b, hb, hop.imp (fun hhlt => ?_) decodeOp_eq_igl.mp, rfl⟩
  simpa [hhlt, encodeOp] using eq_encodeOp_of_decodeOp (b := b) (by simp [hhlt])

/-- Settles O45: the byte before the stopped `pc` is the byte the step found at `pc`. -/
theorem stopCauseReadsTheStoppingByte : Obligations.StopCauseReadsTheStoppingByte := by
  intro s t b hrun hb h ht
  obtain ⟨rfl, _⟩ := step_halted hrun h ht
  have hcause : stopCause? s.stop = if b = 0 then some .hlt else some .igl := by
    simp only [stopCause?, State.stop_runState, s.byteAt_before_stop, hb, Option.some.injEq]
  exact ⟨fun hzero => by rw [hcause, if_pos hzero], fun hne => by rw [hcause, if_neg hne]⟩

end Sys2Proof.Machine
end

section
/-! Frames: what each instruction may write (10_state R23, R30, R31), and what it leaves. -/

namespace Sys2Proof.Machine

/-- The destination byte of an instruction that writes a register (10_state R23). -/
def destReg? : Instr → Option Byte
  | .load rd _ => some rd
  | .add _ _ rd => some rd
  | .sub _ _ rd => some rd
  | .mul _ _ rd => some rd
  | .div _ _ rd => some rd
  | _ => none

/-- From `s` to `t` only what instruction `i` may write has changed. -/
structure WritesOnlyItsOwn (i : Instr) (s t : State) : Prop where
  /-- A register, if it is the destination. -/
  reg : ∀ r : Reg, t.reg r ≠ s.reg r → ∃ rd, destReg? i = some rd ∧ r.val = rd.toNat
  /-- `remainder`, if it is DIV. -/
  remainder : t.remainder ≠ s.remainder → i.operation = .div
  /-- `equal_flag`, if it is EQ. -/
  equalFlag : t.equalFlag ≠ s.equalFlag → i.operation = .eq

/-- A state with the same data has nothing written. -/
theorem WritesOnlyItsOwn.of_data_eq {i : Instr} {s t : State} (hregs : t.regs = s.regs)
    (hrem : t.remainder = s.remainder) (hflag : t.equalFlag = s.equalFlag) : WritesOnlyItsOwn i s t where
  reg r hne := absurd (by simp only [State.reg, hregs]) hne
  remainder hne := absurd hrem hne
  equalFlag hne := absurd hflag hne

/-- So has a state a fault leaves (60_exceptions R208). -/
theorem WritesOnlyItsOwn.of_raised {i : Instr} {s t : State} (h : ∃ k info, t = s.raised k info) :
    WritesOnlyItsOwn i s t := by
  obtain ⟨k, info, rfl⟩ := h
  exact .of_data_eq rfl rfl rfl

/-- A write to one register differs there only. -/
theorem eq_of_setReg_reg_ne {s : State} {i r : Reg} {v : Word} (h : (s.setReg i v).reg r ≠ s.reg r) : r = i := by
  by_contra hri
  exact h (s.setReg_reg_of_ne v hri)

/-- Writing the destination alone is within what an instruction with one may write. -/
theorem WritesOnlyItsOwn.of_setReg {i : Instr} {rd : Byte} (hi : destReg? i = some rd) (hd : rd.toNat < 32) (s : State)
    (v : Word) : WritesOnlyItsOwn i s ((s.setReg ⟨rd.toNat, hd⟩ v).advance 4) where
  reg _ hne := ⟨rd, hi, congrArg Fin.val (eq_of_setReg_reg_ne hne)⟩
  remainder hne := absurd rfl hne
  equalFlag hne := absurd rfl hne

/-- Every instruction writes only its own. -/
theorem exec_writesOnlyItsOwn {i : Instr} {s t : State} (h : exec i s = .next t) : WritesOnlyItsOwn i s t := by
  cases i with
  | hlt => cases h; exact .of_data_eq rfl rfl rfl
  | igl op => cases h; exact .of_data_eq rfl rfl rfl
  | load rd imm => rcases execLoad_next h with ⟨hd, rfl⟩ | hf; exacts [.of_setReg rfl hd s _, .of_raised hf]
  | add rs1 rs2 rd => rcases execAdd_next h with ⟨hd, v, rfl⟩ | hf; exacts [.of_setReg rfl hd s v, .of_raised hf]
  | sub rs1 rs2 rd => rcases execSub_next h with ⟨hd, v, rfl⟩ | hf; exacts [.of_setReg rfl hd s v, .of_raised hf]
  | mul rs1 rs2 rd => rcases execMul_next h with ⟨hd, v, rfl⟩ | hf; exacts [.of_setReg rfl hd s v, .of_raised hf]
  | div rs1 rs2 rd =>
    rcases execDiv_next h with ⟨hd, q, r, rfl⟩ | hf
    · exact ⟨fun _ hne => ⟨rd, rfl, congrArg Fin.val (eq_of_setReg_reg_ne hne)⟩, fun _ => rfl,
        fun hne => absurd rfl hne⟩
    · exact .of_raised hf
  | jmp rs => rcases execJmp_next h with ⟨_, rfl⟩ | hf; exacts [.of_data_eq rfl rfl rfl, .of_raised hf]
  | jmpf off => cases execJmpf_next h; exact .of_data_eq rfl rfl rfl
  | jmpb off =>
    rcases execJmpb_next h with ⟨_, rfl⟩ | ⟨_, hf⟩
    exacts [.of_data_eq rfl rfl rfl, .of_raised ⟨_, _, hf⟩]
  | eq rs1 rs2 pad =>
    rcases execEq_next (pad := pad) h with ⟨f, rfl⟩ | hf
    · exact ⟨fun _ hne => absurd rfl hne, fun hne => absurd rfl hne, fun _ => rfl⟩
    · exact .of_raised hf
  | jeq rs =>
    rcases execJeq_next h with ⟨_, _, rfl⟩ | ⟨_, rfl⟩ | hf
    exacts [.of_data_eq rfl rfl rfl, .of_data_eq rfl rfl rfl, .of_raised hf]

/-- Settles O46: a register that differs is the destination, and an instruction without one writes none. -/
theorem onlyLoadAndAluWriteRegisters : Obligations.OnlyLoadAndAluWriteRegisters := by
  intro i s t r h hne
  obtain ⟨rd, hdest, hr⟩ := (exec_writesOnlyItsOwn h).reg r hne
  cases i <;> cases hdest <;> exact hr

/-- A step leaves `remainder` and `equal_flag` alone, or it executes the instruction of its opcode byte, which writes
only its own. -/
theorem step_writesOnlyItsOwn {s t : State} (h : step s = .next t) :
    (t.remainder = s.remainder ∧ t.equalFlag = s.equalFlag) ∨
    ∃ i b, WritesOnlyItsOwn i s t ∧ s.byteAt? s.pc.toNat = some b ∧ decodeOp b = i.operation := by
  by_cases hrun : s.runState = .running
  · rcases step_next_cases hrun h with ⟨k, info, rfl⟩ | ⟨i, b, he, hb, hop⟩
    · exact .inl ⟨rfl, rfl⟩
    · exact .inr ⟨i, b, exec_writesOnlyItsOwn he, hb, hop⟩
  · cases (step_of_not_running hrun).symm.trans h
    exact .inl ⟨rfl, rfl⟩

/-- The byte of a named operation read at `pc` is that operation's value. -/
theorem byteAt_of_decodeOp {s : State} {a : Nat} {b : Byte} {op : Operation} (hb : s.byteAt? a = some b)
    (hop : decodeOp b = op) (hne : op ≠ .igl) : s.byteAt? a = some (encodeOp op) := by
  subst hop
  rw [hb, ← eq_encodeOp_of_decodeOp hne]

/-- Settles O47: what changes names the instruction, and the instruction its opcode byte. -/
theorem onlyDivAndEqWriteConditionState : Obligations.OnlyDivAndEqWriteConditionState := by
  intro s t h
  rcases step_writesOnlyItsOwn h with ⟨hrem, hflag⟩ | ⟨i, b, hw, hb, hop⟩
  · exact ⟨fun hne => absurd hrem hne, fun hne => absurd hflag hne⟩
  · exact ⟨fun hne => byteAt_of_decodeOp hb (hop.trans (hw.remainder hne)) (by decide),
      fun hne => byteAt_of_decodeOp hb (hop.trans (hw.equalFlag hne)) (by decide)⟩

/-! ## What an instruction leaves -/

/-- No instruction changes a program byte. -/
theorem exec_sameProgram {i : Instr} {s t : State} (h : exec i s = .next t) : SameProgram s t := by
  rcases exec_cases h with ⟨rfl, _⟩ | ⟨_, _, rfl⟩ | ⟨_, _, _, _, rfl⟩ <;> exact fun _ => rfl

/-- An instruction other than HLT and IGL keeps the stop state, or it faults and writes nothing. -/
theorem exec_stopState {i : Instr} {s t : State} (h : exec i s = .next t) (hhlt : i.operation ≠ .hlt)
    (higl : i.operation ≠ .igl) : SameStopState s t ∨ FaultedUnwritten s t := by
  rcases exec_cases h with ⟨_, hop | hop⟩ | ⟨_, _, rfl⟩ | ⟨_, _, _, _, rfl⟩
  · exact absurd hop hhlt
  · exact absurd hop higl
  · exact .inr ⟨rfl, fun _ => rfl, rfl, rfl⟩
  · exact .inl ⟨rfl, rfl, rfl, rfl⟩

section
variable {i : Instr} {s t : State}

/-- A register other than the destination is kept. -/
theorem WritesOnlyItsOwn.reg_eq {rd : Byte} (h : WritesOnlyItsOwn i s t) (hi : destReg? i = some rd) (r : Reg)
    (hr : r.val ≠ rd.toNat) : t.reg r = s.reg r := by
  by_contra hne
  obtain ⟨rd', hdest, hval⟩ := h.reg r hne
  cases hi.symm.trans hdest
  exact hr hval

/-- Without a destination every register is kept. -/
theorem WritesOnlyItsOwn.reg_eq_of_none (h : WritesOnlyItsOwn i s t) (hi : destReg? i = none) (r : Reg) :
    t.reg r = s.reg r := by
  by_contra hne
  obtain ⟨rd, hdest, _⟩ := h.reg r hne
  cases hi.symm.trans hdest

/-- An instruction other than DIV keeps `remainder`. -/
theorem WritesOnlyItsOwn.remainder_eq (h : WritesOnlyItsOwn i s t) (hi : i.operation ≠ .div) :
    t.remainder = s.remainder :=
  not_not.mp (mt h.remainder hi)

/-- An instruction other than EQ keeps `equal_flag`. -/
theorem WritesOnlyItsOwn.equalFlag_eq (h : WritesOnlyItsOwn i s t) (hi : i.operation ≠ .eq) :
    t.equalFlag = s.equalFlag :=
  not_not.mp (mt h.equalFlag hi)

end

/-- Settles O50: both stop, and a stop leaves all of this. -/
theorem frameOfStops : Obligations.FrameOfStops := by
  rintro i s t (rfl | ⟨op, rfl⟩) h <;> cases h <;> exact ⟨fun _ => rfl, rfl, rfl, rfl, rfl, rfl, fun _ => rfl⟩

/-- Settles O51: each of the four has the destination `rd` and is not DIV, EQ or a stop. -/
theorem frameOfLoadAddSubMul : Obligations.FrameOfLoadAddSubMul := by
  intro i rd s t hi h
  have hops : destReg? i = some rd ∧ i.operation ≠ .div ∧ i.operation ≠ .eq ∧ i.operation ≠ .hlt ∧
      i.operation ≠ .igl := by
    rcases hi with ⟨_, rfl⟩ | ⟨_, _, rfl⟩ | ⟨_, _, rfl⟩ | ⟨_, _, rfl⟩ <;> exact ⟨rfl, nofun, nofun, nofun, nofun⟩
  obtain ⟨hdest, hdiv, heq, hhlt, higl⟩ := hops
  have hw := exec_writesOnlyItsOwn h
  exact ⟨hw.reg_eq hdest, hw.remainder_eq hdiv, hw.equalFlag_eq heq, exec_stopState h hhlt higl, exec_sameProgram h⟩

/-- Settles O52. -/
theorem frameOfDiv : Obligations.FrameOfDiv := fun _ _ _ _ _ h =>
  have hw := exec_writesOnlyItsOwn h
  ⟨hw.reg_eq rfl, hw.equalFlag_eq nofun, exec_stopState h nofun nofun, exec_sameProgram h⟩

/-- Settles O53: none of the four has a destination or is DIV, EQ or a stop. -/
theorem frameOfJumps : Obligations.FrameOfJumps := by
  intro i b s t hi h
  have hops : destReg? i = none ∧ i.operation ≠ .div ∧ i.operation ≠ .eq ∧ i.operation ≠ .hlt ∧ i.operation ≠ .igl := by
    rcases hi with rfl | rfl | rfl | rfl <;> exact ⟨rfl, nofun, nofun, nofun, nofun⟩
  obtain ⟨hdest, hdiv, heq, hhlt, higl⟩ := hops
  have hw := exec_writesOnlyItsOwn h
  exact ⟨hw.reg_eq_of_none hdest, hw.remainder_eq hdiv, hw.equalFlag_eq heq,
    (exec_stopState h hhlt higl).imp_right And.left, exec_sameProgram h⟩

/-- Settles O54. -/
theorem frameOfEq : Obligations.FrameOfEq := fun _ _ _ _ _ h =>
  have hw := exec_writesOnlyItsOwn h
  ⟨hw.reg_eq_of_none rfl, hw.remainder_eq nofun, exec_stopState h nofun nofun, exec_sameProgram h⟩

end Sys2Proof.Machine
end

section
/-! Program memory as data, and the host's transactions (20_memory section 1, 70_reset_and_hazards section 3). -/

namespace Sys2Proof.Machine

/-- A canonical list's first cell holds a byte that is not the default, below all others. -/
theorem memSorted_cons {lo : Nat} {c : Host.Cell} {m : List Host.Cell} :
    memSorted lo (c :: m) = true ↔ (lo ≤ c.1 ∧ c.2 ≠ memDefault) ∧ memSorted (c.1 + 1) m = true := by
  simp [memSorted]

/-- The first cell reads as its byte. -/
@[simp] theorem memRead_cons_self (c : Host.Cell) (m : List Host.Cell) : memRead (c :: m) c.1 = c.2 := by
  simp [memRead]

/-- Past the first cell the others are read. -/
theorem memRead_cons_of_ne {c : Host.Cell} {m : List Host.Cell} {a : Nat} (h : c.1 ≠ a) :
    memRead (c :: m) a = memRead m a := by
  simp [memRead, h]

/-- The first cell of a canonical memory stands no higher than that of another that reads alike. -/
theorem head_le_of_memRead_eq {c c' : Host.Cell} {m m' : List Host.Cell} (hc' : c'.2 ≠ memDefault)
    (hm : memSorted c.1 (c :: m) = true) (h : ∀ a, memRead (c :: m) a = memRead (c' :: m') a) : c.1 ≤ c'.1 := by
  by_contra hlt
  have hdefault := memRead_of_lt (Nat.not_le.mp hlt) hm
  rw [h, memRead_cons_self] at hdefault
  exact hc' hdefault

/-- Two canonical lists that read alike everywhere are equal. -/
theorem eq_of_memRead_eq : ∀ {lo lo' : Nat} {m m' : List Host.Cell}, memSorted lo m = true → memSorted lo' m' = true →
    (∀ a, memRead m a = memRead m' a) → m = m'
  | _, _, [], [], _, _, _ => rfl
  | _, _, [], c :: m, _, hm, h => by
    have hread := h c.1
    rw [memRead_cons_self] at hread
    exact absurd hread.symm (memSorted_cons.mp hm).1.2
  | _, _, c :: m, [], hm, _, h => by
    have hread := h c.1
    rw [memRead_cons_self] at hread
    exact absurd hread (memSorted_cons.mp hm).1.2
  | _, _, c :: m, c' :: m', hm, hm', h => by
    obtain ⟨⟨_, hc⟩, hrest⟩ := memSorted_cons.mp hm
    obtain ⟨⟨_, hc'⟩, hrest'⟩ := memSorted_cons.mp hm'
    have haddr : c.1 = c'.1 := le_antisymm
      (head_le_of_memRead_eq hc' (memSorted_cons.mpr ⟨⟨le_rfl, hc⟩, hrest⟩) h)
      (head_le_of_memRead_eq hc (memSorted_cons.mpr ⟨⟨le_rfl, hc'⟩, hrest'⟩) fun a => (h a).symm)
    have hbyte : c.2 = c'.2 := by
      have hread := h c.1
      rwa [memRead_cons_self, haddr, memRead_cons_self] at hread
    have hcell : c = c' := Prod.ext haddr hbyte
    subst hcell
    have htail : ∀ a, memRead m a = memRead m' a := by
      intro a
      by_cases ha : a < c.1 + 1
      · rw [memRead_of_lt ha hrest, memRead_of_lt ha hrest']
      · have hne : c.1 ≠ a := by omega
        simpa [memRead_cons_of_ne hne] using h a
    rw [eq_of_memRead_eq hrest hrest' htail]

/-- Settles O55. -/
theorem canonicalMemoryIsItsBytes : Obligations.CanonicalMemoryIsItsBytes :=
  fun _ _ hm hm' h => eq_of_memRead_eq hm hm' h

/-- A loaded program reads back byte by byte (70 R247). -/
theorem State.setProgram_byteAt (s : State) (bytes : List Byte) (a : Nat) :
    (s.setProgram bytes).byteAt? a = bytes[a]? := by
  rw [State.byteAt?, State.setProgram_progLen, State.setProgram_mem, memRead_memOfBytes bytes 0 a (Nat.zero_le a)]
  split
  · next h => simp [List.getElem?_eq_getElem h]
  · next h => exact (List.getElem?_eq_none (Nat.not_lt.mp h)).symm

/-- `load_program` within the bound, before the first step (70 R247). -/
theorem Session.loadProgram_of_le {x : Session} {bytes : List Byte} (hfresh : x.stepped = false)
    (hlen : bytes.length ≤ 2 ^ 31) :
    x.loadProgram bytes = .next ({ x with core := x.core.setProgram bytes }, .done) := by
  have hle : ¬ params.maxProgramLen < bytes.length := Nat.not_lt.mpr hlen
  simp only [Session.loadProgram, hfresh, hle, if_false, Bool.false_eq_true]

/-- Settles O56. -/
theorem loadProgramThenRead : Obligations.LoadProgramThenRead := fun x bytes hfresh hlen =>
  ⟨_, Session.loadProgram_of_le hfresh hlen, rfl, x.core.setProgram_byteAt bytes, rfl⟩

/-- `load_program` after the first step (20_memory R53). -/
theorem Session.loadProgram_of_stepped {x : Session} (bytes : List Byte) (h : x.stepped = true) :
    x.loadProgram bytes = .refused .hostMoveWithoutMeaning := by
  simp only [Session.loadProgram, h, if_true]

/-- `load_program` of a program beyond the bound (20_memory R54). -/
theorem Session.loadProgram_of_too_long {x : Session} {bytes : List Byte} (hfresh : x.stepped = false)
    (hlen : 2 ^ 31 < bytes.length) : x.loadProgram bytes = .refused .programTooLong := by
  have hgt : params.maxProgramLen < bytes.length := hlen
  simp only [Session.loadProgram, hfresh, hgt, if_true, if_false, Bool.false_eq_true]

/-- `poke_reg` in RUNNING (10_state R24). -/
theorem Session.pokeReg_of_running {x : Session} (i : Reg) (v : Word) (h : x.core.runState = .running) :
    x.pokeReg i v = .next ({ x with core := x.core.setReg i v }, .done) := by
  simp only [Session.pokeReg, h]

/-- `poke_reg` outside RUNNING. -/
theorem Session.pokeReg_of_not_running {x : Session} (i : Reg) (v : Word) (h : x.core.runState ≠ .running) :
    x.pokeReg i v = .refused .hostMoveWithoutMeaning := by
  unfold Session.pokeReg
  cases hr : x.core.runState with
  | running => exact absurd hr h
  | halted => rfl
  | faulted => rfl

/-- Settles O57. -/
theorem meaninglessHostMovesAreRefused : Obligations.MeaninglessHostMovesAreRefused :=
  ⟨fun _ => Session.loadProgram_of_stepped, fun _ _ => Session.loadProgram_of_too_long,
    fun _ => Session.pokeReg_of_not_running⟩

/-- Settles O58. -/
theorem pokeRegWritesOneRegister : Obligations.PokeRegWritesOneRegister := fun x i v hrun =>
  ⟨{ x with core := x.core.setReg i v }, Session.pokeReg_of_running i v hrun, rfl, fun r => x.core.setReg_reg i r v,
    by simp only [Session.request, State.setReg_reg_same]⟩

/-- Settles O59: only `read_fault` looks at `run_state` first. -/
theorem readsChangeNothing : Obligations.ReadsChangeNothing := fun x =>
  ⟨fun _ => rfl, rfl, rfl, rfl, rfl, fun k hfaulted hkind => by simp [Session.request, readFault, hfaulted, hkind]⟩

/-- A report is continue in RUNNING only (70 R245). -/
theorem reportOf_eq_goOn {s : State} : reportOf s = .goOn ↔ s.runState = .running := by
  unfold reportOf
  cases s.runState <;> simp

/-- Settles O60. -/
theorem stepRequestReports : Obligations.StepRequestReports := fun x t h =>
  ⟨reportOf t, by simp only [Session.request, Session.step, h], reportOf_eq_goOn⟩

end Sys2Proof.Machine
end

section
/-! What each instruction computes from legal operands (42_arithmetic, 43_jumps, 44_compare_branch), and the fault of an
illegal one (60_exceptions R203). -/

namespace Sys2Proof.Machine

/-! ## ADD, SUB, MUL -/

/-- Wrapping the exact sum is the sum of the bit patterns (42 R147). -/
theorem wrap32_add (a b : Word) : wrap32 (a.toInt + b.toInt) = a + b :=
  BitVec.eq_of_toInt_eq (by rw [wrap32_toInt, BitVec.toInt_add])

/-- So for the difference. -/
theorem wrap32_sub (a b : Word) : wrap32 (a.toInt - b.toInt) = a - b :=
  BitVec.eq_of_toInt_eq (by rw [wrap32_toInt, BitVec.toInt_sub])

/-- So for the product. -/
theorem wrap32_mul (a b : Word) : wrap32 (a.toInt * b.toInt) = a * b :=
  BitVec.eq_of_toInt_eq (by rw [wrap32_toInt, BitVec.toInt_mul])

section
variable {rs1 rs2 rd : Byte} (s : State) (h1 : rs1.toNat < 32) (h2 : rs2.toNat < 32) (h3 : rd.toNat < 32)

/-- ADD with legal operands (42 R141). -/
theorem exec_add_of_lt : exec (.add rs1 rs2 rd) s = .next ((s.setReg ⟨rd.toNat, h3⟩
    (wrap32 ((s.reg ⟨rs1.toNat, h1⟩).toInt + (s.reg ⟨rs2.toNat, h2⟩).toInt))).advance 4) :=by
  simp only [exec, execAdd, addWith, withOperandsA_of_lt h1 h2 h3, storeExact_params]

/-- SUB with legal operands (42 R142). -/
theorem exec_sub_of_lt : exec (.sub rs1 rs2 rd) s = .next ((s.setReg ⟨rd.toNat, h3⟩
    (wrap32 ((s.reg ⟨rs1.toNat, h1⟩).toInt - (s.reg ⟨rs2.toNat, h2⟩).toInt))).advance 4) :=by
  simp only [exec, execSub, subWith, withOperandsA_of_lt h1 h2 h3, storeExact_params]

/-- MUL with legal operands (42 R143). -/
theorem exec_mul_of_lt : exec (.mul rs1 rs2 rd) s = .next ((s.setReg ⟨rd.toNat, h3⟩
    (wrap32 ((s.reg ⟨rs1.toNat, h1⟩).toInt * (s.reg ⟨rs2.toNat, h2⟩).toInt))).advance 4) :=by
  simp only [exec, execMul, mulWith, withOperandsA_of_lt h1 h2 h3, storeExact_params]

/-- DIV with legal operands (42 R144). -/
theorem exec_div_of_lt : exec (.div rs1 rs2 rd) s =
    storeDivision (divide params (s.reg ⟨rs1.toNat, h1⟩) (s.reg ⟨rs2.toNat, h2⟩)) ⟨rd.toNat, h3⟩ s := by
  simp only [exec, execDiv, divWith, withOperandsA_of_lt h1 h2 h3]

end

/-- Settles O24. -/
theorem addStoresWrappedSum : Obligations.AddStoresWrappedSum := fun _ _ _ s h1 h2 h3 =>
  ⟨_, wrap32_toInt _, exec_add_of_lt s h1 h2 h3⟩

/-- Settles O25. -/
theorem subStoresWrappedDifference : Obligations.SubStoresWrappedDifference := fun _ _ _ s h1 h2 h3 =>
  ⟨_, wrap32_toInt _, exec_sub_of_lt s h1 h2 h3⟩

/-- Settles O26. -/
theorem mulStoresWrappedProduct : Obligations.MulStoresWrappedProduct := fun _ _ _ s h1 h2 h3 =>
  ⟨_, wrap32_toInt _, exec_mul_of_lt s h1 h2 h3⟩

/-- Settles O27. -/
theorem addSubMulSameBitsUnsigned : Obligations.AddSubMulSameBitsUnsigned := by
  intro rs1 rs2 rd s h1 h2 h3
  rw [exec_add_of_lt s h1 h2 h3, exec_sub_of_lt s h1 h2 h3, exec_mul_of_lt s h1 h2 h3]
  rw [wrap32_add, wrap32_sub, wrap32_mul]
  exact ⟨rfl, rfl, rfl⟩

/-! ## DIV -/

/-- A division that faults in neither way has the signed quotient and remainder, exactly (42 R144, R146). -/
theorem divide_cases_exact (a b : Word) :
    (b.toInt = 0 ∧ divide params a b = .byZero) ∨
    (a.toInt = int32Min ∧ b.toInt = -1 ∧ divide params a b = .overflow) ∨
    (b.toInt ≠ 0 ∧ divide params a b = .done (a.sdiv b) (a.srem b) ∧ (a.sdiv b).toInt = a.toInt.tdiv b.toInt) := by
  rcases divide_cases a b with hzero | hmin | ⟨hzero, hmin, hdone⟩
  · exact .inl hzero
  · exact .inr (.inl hmin)
  · have hne : a ≠ BitVec.intMin 32 ∨ b ≠ -1#32 := by
      by_contra hboth
      obtain ⟨rfl, rfl⟩ : a = BitVec.intMin 32 ∧ b = -1#32 := by simpa [not_or] using hboth
      exact hmin (by decide)
    have hquot := BitVec.toInt_sdiv_of_ne_or_ne a b hne
    refine .inr (.inr ⟨hzero, ?_, hquot⟩)
    rw [hdone, ← Int.tmod_def, ← BitVec.toInt_srem, ← hquot]
    simp only [wrap32, BitVec.ofInt_toInt]

/-- Settles O28: off the faulting cases the third case of a division is left. -/
theorem divStoresQuotientAndRemainder : Obligations.DivStoresQuotientAndRemainder := by
  rintro rs1 rs2 rd s h1 h2 h3 _ _ rfl rfl hzero hmin
  rcases divide_cases_exact (s.reg ⟨rs1.toNat, h1⟩) (s.reg ⟨rs2.toNat, h2⟩) with
    ⟨h, _⟩ | ⟨ha, hb, _⟩ | ⟨_, hdone, hquot⟩
  · exact absurd h hzero
  · exact absurd ⟨ha, hb⟩ hmin
  · refine ⟨_, _, hquot, (BitVec.toInt_srem _ _).trans (Int.tmod_def _ _), ?_⟩
    rw [exec_div_of_lt s h1 h2 h3, hdone]
    rfl

/-- The remainder of a truncated division is 0 or has the sign of the dividend (42 R146). -/
theorem tmod_eq_zero_or_neg_iff (a b : Int) : a.tmod b = 0 ∨ (a.tmod b < 0 ↔ a < 0) := by
  by_cases ha : 0 ≤ a
  · have := Int.tmod_nonneg b ha
    omega
  · have := Int.tmod_nonneg b (a := -a) (by omega)
    rw [Int.neg_tmod] at this
    omega

/-- Settles O29: a DIV that stays RUNNING has not faulted, and left the quotient and the remainder. -/
theorem divIdentityHolds : Obligations.DivIdentityHolds := by
  rintro rs1 rs2 rd s t h1 h2 h3 _ _ _ rfl rfl h _ ht rfl
  rw [exec_div_of_lt s h1 h2 h3] at h
  rcases divide_cases_exact (s.reg ⟨rs1.toNat, h1⟩) (s.reg ⟨rs2.toNat, h2⟩) with
    ⟨_, ho⟩ | ⟨_, _, ho⟩ | ⟨hzero, ho, hquot⟩
  · rw [ho] at h; cases h; cases ht
  · rw [ho] at h; cases h; cases ht
  · rw [ho] at h
    cases h
    simp only [State.advance_reg, State.setRemainder_reg, State.setReg_reg_same, State.advance_remainder,
      State.setRemainder_remainder, hquot, BitVec.toInt_srem]
    refine ⟨(Int.mul_tdiv_add_tmod _ _).symm, ?_, tmod_eq_zero_or_neg_iff _ _⟩
    rw [Int.natAbs_tmod]
    exact Nat.mod_lt _ (Int.natAbs_pos.mpr hzero)

/-- Settles O30. -/
theorem divisionFaults : Obligations.DivisionFaults := by
  refine ⟨fun rs1 rs2 rd s h2 h1 h3 hzero => ?_, fun rs1 rs2 rd s h1 h2 h3 ha hb => ?_⟩
  · rw [exec_div_of_lt s h1 h2 h3, hzero]
    rfl
  · rw [exec_div_of_lt s h1 h2 h3]
    have ho : divide params (s.reg ⟨rs1.toNat, h1⟩) (s.reg ⟨rs2.toNat, h2⟩) = .overflow := by
      simp [divide, ha, hb, int32Min]
    rw [ho]
    rfl

/-! ## Jumps and EQ -/

/-- Settles O31. -/
theorem jmpSetsPcToRegister : Obligations.JmpSetsPcToRegister := fun _ s h => withReg_of_lt h s _

/-- JMPB to an address that exists (43 R167). -/
theorem exec_jmpb_of_le {off : Byte} {s : State} (h : off.toNat ≤ (s.pc + 2).toNat) :
    exec (.jmpb off) s = .next (s.setPc (s.pc + 2 - zextAddr off)) := by
  have hle : ¬ (s.pc + 2).toNat < (zextAddr off).toNat := by rw [zextAddr_toNat]; omega
  exact if_neg fun c => hle (BitVec.lt_def.mp c.1)

/-- JMPB below address 0 (43 R168). -/
theorem exec_jmpb_of_gt {off : Byte} {s : State} (h : (s.pc + 2).toNat < off.toNat) :
    exec (.jmpb off) s = raise .pcUnderflow s.pc s := by
  have hlt : (s.pc + 2).toNat < (zextAddr off).toNat := by rwa [zextAddr_toNat]
  exact if_pos ⟨BitVec.lt_def.mpr hlt, rfl⟩

/-- Settles O34. -/
theorem jmpbJumpsBackwardOrFaults : Obligations.JmpbJumpsBackwardOrFaults := by
  refine ⟨fun off s h => ⟨s.pc + 2 - zextAddr off, ?_, exec_jmpb_of_le h⟩, fun _ _ => exec_jmpb_of_gt⟩
  rw [addr_sub_toNat (by rwa [zextAddr_toNat]), zextAddr_toNat]

/-- EQ with legal operands (44 R181). -/
theorem exec_eq_of_lt {rs1 rs2 : Byte} (pad : Byte) (s : State) (h1 : rs1.toNat < 32) (h2 : rs2.toNat < 32) :
    exec (.eq rs1 rs2 pad) s =
      .next ((s.setEqualFlag (equalBits (s.reg ⟨rs1.toNat, h1⟩) (s.reg ⟨rs2.toNat, h2⟩))).advance 4) := by
  simp only [exec, execEq, withReg_of_lt h1, withReg_of_lt h2]

/-- Comparing two words compares each of the 32 bits. -/
theorem equalBits_eq_decide (a b : Word) : equalBits a b = decide (∀ k : Fin 32, a.getLsbD k = b.getLsbD k) := by
  rw [Bool.eq_iff_iff]
  simp only [equalBits, beq_iff_eq, decide_eq_true_eq, BitVec.eq_of_getLsbD_eq_iff, Fin.forall_iff]

/-- Settles O36. -/
theorem eqComparesAllBits : Obligations.EqComparesAllBits := by
  intro rs1 rs2 pad s h1 h2
  rw [exec_eq_of_lt pad s h1 h2, equalBits_eq_decide]
  rfl

/-- JEQ with a legal operand (44 R184). -/
theorem exec_jeq_of_lt {rs : Byte} (s : State) (h : rs.toNat < 32) : exec (.jeq rs) s =
    if s.equalFlag then .next (s.setPc (s.reg ⟨rs.toNat, h⟩)) else .next (s.advance 4) :=
  withReg_of_lt h s _

/-- Settles O37. -/
theorem jeqTakenAndNotTaken : Obligations.JeqTakenAndNotTaken := fun _ s h =>
  ⟨fun hflag => (exec_jeq_of_lt s h).trans (if_pos hflag),
    fun hflag => (exec_jeq_of_lt s h).trans (if_neg (Bool.not_eq_true _ ▸ hflag))⟩

/-! ## Faults -/

/-- Settles O38. -/
theorem raiseEffect : Obligations.RaiseEffect := fun kind info s =>
  ⟨s.raised kind info, rfl, rfl, rfl, rfl, rfl, fun _ => rfl, rfl, rfl, fun _ => rfl⟩

/-- The arithmetic instructions check their operands the way of format A (42 R140). -/
theorem exec_formatA {i : Byte → Byte → Byte → Instr} (hi : i = .add ∨ i = .sub ∨ i = .mul ∨ i = .div) (s : State) :
    ∃ k, ∀ rs1 rs2 rd, exec (i rs1 rs2 rd) s = withOperandsA rs1 rs2 rd s k := by
  rcases hi with rfl | rfl | rfl | rfl
  · exact ⟨fun a b d => storeExact params (a.toInt + b.toInt) d s, fun _ _ _ => rfl⟩
  · exact ⟨fun a b d => storeExact params (a.toInt - b.toInt) d s, fun _ _ _ => rfl⟩
  · exact ⟨fun a b d => storeExact params (a.toInt * b.toInt) d s, fun _ _ _ => rfl⟩
  · exact ⟨fun a b d => storeDivision (divide params a b) d s, fun _ _ _ => rfl⟩

/-- Settles O40: register operands are checked one after another, before anything else. -/
theorem illegalRegisterBytesFault : Obligations.IllegalRegisterBytesFault := by
  refine ⟨fun i rs1 rs2 rd s hi => ?_, fun b imm s hb => ?_, fun rs1 rs2 pad s => ?_⟩
  · obtain ⟨k, hk⟩ := exec_formatA hi s
    rw [hk]
    refine ⟨fun h1 => ?_, fun h1 h2 => ?_, fun h1 h2 h3 => ?_⟩
    · exact withReg_of_ge (by omega) s _
    · rw [withOperandsA, withReg_of_lt (by omega)]
      exact withReg_of_ge (by omega) s _
    · rw [withOperandsA, withReg_of_lt (by omega), withReg_of_lt (by omega)]
      exact withReg_of_ge (by omega) s _
  · have hge : ¬ b.toNat < 32 := by omega
    exact ⟨withReg_of_ge hge s _, withReg_of_ge hge s _, withReg_of_ge hge s _⟩
  · refine ⟨fun h1 => withReg_of_ge (by omega) s _, fun h1 h2 => ?_⟩
    rw [exec, execEq, withReg_of_lt (by omega)]
    exact withReg_of_ge (by omega) s _

/-- Settles O41: no byte exists at or beyond the end of the program, and at reset none exists at all. -/
theorem opcodeFetchPastEndFaults : Obligations.OpcodeFetchPastEndFaults := by
  have hpast : ∀ s : State, s.runState = .running → s.progLen ≤ s.pc.toNat → step s = raise .pcOverrun s.pc s :=
    fun _ hrun h => step_of_fetchInstr_raised hrun (fetchInstr_of_none (State.byteAt_eq_none_of_progLen_le h))
  exact ⟨hpast, hpast State.reset rfl (Nat.zero_le _)⟩

end Sys2Proof.Machine
end

section
/-! A step of a RUNNING CORE whose instruction is all there: what is executed (40 R110), and where `pc` goes without
wrapping (10_state R29). -/

namespace Sys2Proof.Machine

/-- The bytes at `pc` decoded, however many were fetched, are the instruction fetched. -/
theorem fetchInstr_of_decode {s : State} {n : Nat} {i : Instr} {rest : List Byte}
    (h : decode (fetchBytes s s.pc n) = .instr i rest) : fetchInstr s = .instr i := by
  cases hbs : fetchBytes s s.pc n with
  | nil => rw [hbs] at h; cases h
  | cons b0 bs =>
    rw [hbs] at h
    obtain ⟨m, _, hb, hm⟩ := fetchBytes_eq_cons hbs
    have hle : bytesFetched (decodeOp b0) - 1 ≤ m := by
      have hlen := decodeOperands_instr_length h
      have hmax := fetchBytes_length s m (s.pc + 1)
      rw [hm] at hmax
      omega
    have htake := decodeOperands_take h
    rw [← hm, fetchBytes_take, min_eq_left hle] at htake
    rw [fetchInstr_of_some hb, htake]

/-- Settles O11. -/
theorem runningStepRunsDecodedInstruction : Obligations.RunningStepRunsDecodedInstruction :=
  fun _ _ _ _ hrun h => step_of_fetchInstr_instr hrun (fetchInstr_of_decode h)

/-- Going on by a few bytes from within a program does not wrap. -/
theorem State.advance_pc_toNat {s : State} (h : s.pc.toNat < 2 ^ 31) {n : Nat} (hn : n < 2 ^ 31) :
    (s.advance n).pc.toNat = s.pc.toNat + n :=
  addr_add_ofNat_toNat s.pc (by omega)

/-- Nor does counting from just after an offset byte. -/
theorem afterOffset_toNat {s : State} (h : s.pc.toNat < 2 ^ 31) : (s.pc + 2).toNat = s.pc.toNat + 2 :=
  s.advance_pc_toNat h (by decide : 2 < 2 ^ 31)

/-- A jump forward does not wrap (43 R164). -/
theorem jmpf_target_toNat {s : State} (h : s.pc.toNat < 2 ^ 31) (off : Byte) :
    (s.pc + 2 + zextAddr off).toNat = s.pc.toNat + 2 + off.toNat := by
  have := off.isLt
  rw [addr_add_toNat, afterOffset_toNat h, zextAddr_toNat]
  omega

/-- A jump backward that does not fault does not wrap (43 R167). -/
theorem jmpb_target_toNat {s : State} (h : s.pc.toNat < 2 ^ 31) {off : Byte} (hle : zextAddr off ≤ s.pc + 2) :
    (s.pc + 2 - zextAddr off).toNat + off.toNat = s.pc.toNat + 2 := by
  have hnat := BitVec.le_def.mp hle
  rw [addr_sub_toNat hnat]
  rw [afterOffset_toNat h, zextAddr_toNat] at *
  omega

/-- A state a fault leaves is FAULTED. -/
theorem not_raised_of_not_faulted {s t : State} (ht : t.runState ≠ .faulted) : ¬ ∃ k info, t = s.raised k info := by
  rintro ⟨k, info, rfl⟩
  exact ht rfl

/-- Settles O35: `pc` lies below the end of the program, so nothing the table adds reaches the width of `pc`. -/
theorem pcNeverWraps : Obligations.PcNeverWraps := by
  rintro s t i rest ⟨_, _, hlen⟩ hrun hd h ht
  have hfetch := fetchInstr_of_decode hd
  have hpc : s.pc.toNat < 2 ^ 31 := by
    obtain ⟨b, hb, _⟩ := fetchInstr_opcode hfetch
    exact lt_of_lt_of_le (State.byteAt_lt hb) hlen
  have he : exec i s = .next t := (step_of_fetchInstr_instr hrun hfetch).symm.trans h
  have hnf := not_raised_of_not_faulted (s := s) ht
  have hnext : ∀ n < 2 ^ 31, (s.advance n).pc.toNat = s.pc.toNat + n := fun _ => State.advance_pc_toNat hpc
  cases i with
  | hlt => cases he; exact hnext 1 (by decide)
  | igl op => cases he; exact hnext 1 (by decide)
  | load rd imm => obtain ⟨_, rfl⟩ := (execLoad_next he).resolve_right hnf; exact hnext 4 (by decide)
  | add rs1 rs2 rd => obtain ⟨_, _, rfl⟩ := (execAdd_next he).resolve_right hnf; exact hnext 4 (by decide)
  | sub rs1 rs2 rd => obtain ⟨_, _, rfl⟩ := (execSub_next he).resolve_right hnf; exact hnext 4 (by decide)
  | mul rs1 rs2 rd => obtain ⟨_, _, rfl⟩ := (execMul_next he).resolve_right hnf; exact hnext 4 (by decide)
  | div rs1 rs2 rd => obtain ⟨_, _, _, rfl⟩ := (execDiv_next he).resolve_right hnf; exact hnext 4 (by decide)
  | eq rs1 rs2 pad => obtain ⟨_, rfl⟩ := (execEq_next (pad := pad) he).resolve_right hnf; exact hnext 4 (by decide)
  | jmpf off => cases execJmpf_next he; exact jmpf_target_toNat hpc off
  | jmpb off =>
    rcases execJmpb_next he with ⟨hle, rfl⟩ | ⟨_, hf⟩
    · exact jmpb_target_toNat hpc hle
    · exact absurd ⟨_, _, hf⟩ hnf
  | jmp rs => obtain ⟨hr, rfl⟩ := (execJmp_next he).resolve_right hnf; exact ⟨hr, rfl⟩
  | jeq rs =>
    rcases withReg_next he with ⟨hr, _⟩ | ⟨_, hf⟩
    · obtain ⟨htaken, hnot⟩ := jeqTakenAndNotTaken rs s hr
      refine ⟨hr, fun hflag => ?_, fun hflag => ?_⟩
      · cases he.symm.trans (htaken hflag); rfl
      · cases he.symm.trans (hnot hflag); exact hnext 4 (by decide)
    · exact absurd ⟨_, _, hf⟩ hnf

end Sys2Proof.Machine
end

section
/-! Operand bytes in the order they are fetched (60_exceptions R210, decision D13): the first one that is an illegal
register index, or else the first that is missing, is the fault of the step. -/

namespace Sys2Proof.Machine

/-! ## The first illegal register byte -/

/-- The first of the operand bytes that should name a register and does not (30_encoding R88). -/
def firstIllegal : List OperandKind → List Byte → Option Byte
  | kind :: kinds, c :: bs => if kind = .regIdx ∧ ¬ c.toNat < 32 then some c else firstIllegal kinds bs
  | _, _ => none

section
variable {kind : OperandKind} {c : Byte} {kinds : List OperandKind} {bs : List Byte}

/-- It is the first byte, if that is illegal, -/
theorem firstIllegal_cons_of_illegal (h : ¬ c.toNat < 32) : firstIllegal (.regIdx :: kinds) (c :: bs) = some c :=
  if_pos ⟨rfl, h⟩

/-- and otherwise the first of the others. -/
theorem firstIllegal_cons_of_legal (h : kind = .regIdx → c.toNat < 32) :
    firstIllegal (kind :: kinds) (c :: bs) = firstIllegal kinds bs :=
  if_neg fun hillegal => hillegal.2 (h hillegal.1)

/-- Without operand bytes there is none. -/
theorem firstIllegal_nil : firstIllegal kinds [] = none := by
  cases kinds <;> rfl

end

/-- An illegal register byte with none before it is the first. -/
theorem firstIllegal_eq_some {b : Byte} (hb : ¬ b.toNat < 32) :
    ∀ {kinds : List OperandKind} {bs : List Byte} (k : Nat), bs[k]? = some b → kinds[k]? = some .regIdx →
      (∀ (j : Nat) (c : Byte), j < k → bs[j]? = some c → kinds[j]? = some .regIdx → c.toNat < 32) →
      firstIllegal kinds bs = some b
  | [], _, _, _, hkind, _ => by simp at hkind
  | _ :: _, [], _, hbyte, _, _ => by simp at hbyte
  | kind :: kinds, c :: bs, 0, hbyte, hkind, _ => by
    cases hbyte
    cases hkind
    exact firstIllegal_cons_of_illegal hb
  | kind :: kinds, c :: bs, k + 1, hbyte, hkind, hlegal => by
    rw [firstIllegal_cons_of_legal fun h => hlegal 0 c k.succ_pos rfl (congrArg some h)]
    exact firstIllegal_eq_some hb k hbyte hkind fun j d hj => hlegal (j + 1) d (Nat.succ_lt_succ hj)

/-- Where every register byte is legal there is none. -/
theorem firstIllegal_eq_none : ∀ {kinds : List OperandKind} {bs : List Byte},
    (∀ (j : Nat) (c : Byte), bs[j]? = some c → kinds[j]? = some .regIdx → c.toNat < 32) → firstIllegal kinds bs = none
  | [], _, _ => rfl
  | _ :: _, [], _ => firstIllegal_nil
  | kind :: kinds, c :: bs, hlegal => by
    rw [firstIllegal_cons_of_legal fun h => hlegal 0 c rfl (congrArg some h)]
    exact firstIllegal_eq_none fun j d => hlegal (j + 1) d

/-! ## The fault of an instruction with missing bytes -/

/-- Going on from an address one further, one byte fewer. -/
theorem addr_succ_add (a : Addr) (n : Nat) : a + 1 + BitVec.ofNat 32 n = a + BitVec.ofNat 32 (n + 1) := by
  have hone : (1 : Addr) + BitVec.ofNat 32 n = BitVec.ofNat 32 (n + 1) :=
    (BitVec.add_comm _ _).trans (BitVec.ofNat_add n 1).symm
  exact (BitVec.add_assoc _ _ _).trans (congrArg (a + ·) hone)

section
variable {kind : OperandKind} {c : Byte} {kinds : List OperandKind} {bs : List Byte}

/-- An illegal first byte is its fault, -/
theorem missingByteFault_cons_of_illegal (h : ¬ c.toNat < 32) (a : Addr) :
    missingByteFault (.regIdx :: kinds) (c :: bs) a = (.regIndexOutOfRange, zextByte c) := by
  rw [missingByteFault, regIdx_of_ge h]

/-- and otherwise the fault is that of the others. -/
theorem missingByteFault_cons_of_legal (h : kind = .regIdx → c.toNat < 32) (a : Addr) :
    missingByteFault (kind :: kinds) (c :: bs) a = missingByteFault kinds bs (a + 1) := by
  cases kind with
  | raw => rfl
  | regIdx => rw [missingByteFault, regIdx_of_lt (h rfl)]

end

/-- It is the first illegal register byte, where there is one, -/
theorem missingByteFault_of_illegal {b : Byte} : ∀ {kinds : List OperandKind} {bs : List Byte} (a : Addr),
    firstIllegal kinds bs = some b → missingByteFault kinds bs a = (.regIndexOutOfRange, zextByte b)
  | [], _, _, h => by cases h
  | _ :: _, [], _, h => by cases firstIllegal_nil.symm.trans h
  | kind :: kinds, c :: bs, a, h => by
    by_cases hc : kind = .regIdx ∧ ¬ c.toNat < 32
    · obtain ⟨rfl, hge⟩ := hc
      cases (firstIllegal_cons_of_illegal hge).symm.trans h
      exact missingByteFault_cons_of_illegal hge a
    · have hlegal : kind = .regIdx → c.toNat < 32 := by simpa using hc
      rw [firstIllegal_cons_of_legal hlegal] at h
      rw [missingByteFault_cons_of_legal hlegal, missingByteFault_of_illegal (a + 1) h]

/-- and otherwise the first missing byte. -/
theorem missingByteFault_of_legal : ∀ {kinds : List OperandKind} {bs : List Byte} (a : Addr),
    firstIllegal kinds bs = none → bs.length < kinds.length →
    missingByteFault kinds bs a = (.pcOverrun, a + BitVec.ofNat 32 bs.length)
  | [], _, _, _, hlen => absurd hlen (Nat.not_lt_zero _)
  | kind :: _, [], a, _, _ => by cases kind <;> simp [missingByteFault]
  | kind :: kinds, c :: bs, a, h, hlen => by
    have hlegal : kind = .regIdx → c.toNat < 32 := by
      rintro rfl
      by_contra hge
      cases (firstIllegal_cons_of_illegal hge).symm.trans h
    rw [firstIllegal_cons_of_legal hlegal] at h
    rw [missingByteFault_cons_of_legal hlegal, missingByteFault_of_legal (a + 1) h (by simpa using hlen), addr_succ_add,
      List.length_cons]

/-! ## The fault of an instruction that is all there -/

/-- A single register operand that is illegal raises. -/
theorem withReg_of_firstIllegal {b c : Byte} {kinds : List OperandKind} {bs : List Byte} {s : State} {k : Reg → Result}
    (h : firstIllegal (.regIdx :: kinds) (c :: bs) = some b)
    (hk : ∀ r, firstIllegal kinds bs = some b → k r = raise .regIndexOutOfRange (zextByte b) s) :
    withReg c s k = raise .regIndexOutOfRange (zextByte b) s := by
  by_cases hc : c.toNat < 32
  · rw [firstIllegal_cons_of_legal fun _ => hc] at h
    rw [withReg_of_lt hc]
    exact hk _ h
  · cases (firstIllegal_cons_of_illegal hc).symm.trans h
    exact withReg_of_ge hc s k

/-- So do the operands of format A. -/
theorem withOperandsA_of_firstIllegal {b rs1 rs2 rd : Byte} {s : State} {k : Word → Word → Reg → Result}
    (h : firstIllegal [.regIdx, .regIdx, .regIdx] [rs1, rs2, rd] = some b) :
    withOperandsA rs1 rs2 rd s k = raise .regIndexOutOfRange (zextByte b) s :=
  withReg_of_firstIllegal h fun _ h => withReg_of_firstIllegal h fun _ h => withReg_of_firstIllegal h nofun

/-- Executing an instruction with an illegal register byte raises the first one (60_exceptions R203). -/
theorem exec_of_firstIllegal {op : Operation} {b0 b : Byte} {bs : List Byte} {i : Instr} (s : State)
    (hd : decodeOperands op b0 bs = .instr i []) (h : firstIllegal (operandKinds op) bs = some b) :
    exec i s = raise .regIndexOutOfRange (zextByte b) s := by
  have hbs := operandBytes_of_decodeOperands hd
  cases decodeOperands_operation hd
  rw [List.append_nil] at hbs
  subst hbs
  cases i with
  | hlt => cases h
  | igl op => cases h
  | load rd imm => exact withReg_of_firstIllegal h nofun
  | add rs1 rs2 rd =>
    obtain ⟨k, hk⟩ := exec_formatA (i := .add) (by simp) s
    exact (hk rs1 rs2 rd).trans (withOperandsA_of_firstIllegal h)
  | sub rs1 rs2 rd =>
    obtain ⟨k, hk⟩ := exec_formatA (i := .sub) (by simp) s
    exact (hk rs1 rs2 rd).trans (withOperandsA_of_firstIllegal h)
  | mul rs1 rs2 rd =>
    obtain ⟨k, hk⟩ := exec_formatA (i := .mul) (by simp) s
    exact (hk rs1 rs2 rd).trans (withOperandsA_of_firstIllegal h)
  | div rs1 rs2 rd =>
    obtain ⟨k, hk⟩ := exec_formatA (i := .div) (by simp) s
    exact (hk rs1 rs2 rd).trans (withOperandsA_of_firstIllegal h)
  | jmp rs => exact withReg_of_firstIllegal h nofun
  | jmpf off => cases h
  | jmpb off => cases h
  | eq rs1 rs2 pad => exact withReg_of_firstIllegal h fun _ h => withReg_of_firstIllegal h nofun
  | jeq rs => exact withReg_of_firstIllegal h nofun

/-! ## The step -/

/-- The operand bytes that are there after an opcode byte `b0` at `pc`. -/
def operandsThere (s : State) (b0 : Byte) : List Byte :=
  fetchBytes s (s.pc + 1) (operandKinds (decodeOp b0)).length

section
variable {s : State} {b0 : Byte}

/-- They are the bytes the fetch decodes. -/
theorem operandsThere_eq (s : State) (b0 : Byte) :
    operandsThere s b0 = fetchBytes s (s.pc + 1) (bytesFetched (decodeOp b0) - 1) := by
  rw [operandsThere, operandKinds_length]

/-- Of an instruction that is all there nothing is left over. -/
theorem decode_operandsThere {i : Instr} {rest : List Byte}
    (h : decodeOperands (decodeOp b0) b0 (operandsThere s b0) = .instr i rest) :
    decodeOperands (decodeOp b0) b0 (operandsThere s b0) = .instr i [] := by
  have htake := decodeOperands_take h
  rwa [operandsThere_eq, fetchBytes_take, min_self, ← operandsThere_eq] at htake

variable (hrun : s.runState = .running) (hb : s.byteAt? s.pc.toNat = some b0)
include hrun hb

/-- A step at an instruction that is all there executes it. -/
theorem step_of_complete {i : Instr} {rest : List Byte}
    (h : decodeOperands (decodeOp b0) b0 (operandsThere s b0) = .instr i rest) : step s = exec i s := by
  refine step_of_fetchInstr_instr hrun ?_
  rw [fetchInstr_of_some hb, ← operandsThere_eq, h]

/-- A step at one that is not raises the fault of its missing byte. -/
theorem step_of_rejected {r : DecodeReject}
    (h : decodeOperands (decodeOp b0) b0 (operandsThere s b0) = .rejected r) {k : FaultKind} {info : Word}
    (hf : missingByteFault (operandKinds (decodeOp b0)) (operandsThere s b0) (s.pc + 1) = (k, info)) :
    step s = raise k info s := by
  refine step_of_fetchInstr_raised hrun ?_
  rw [fetchInstr_of_some hb, ← operandsThere_eq, h, hf]

/-- The first illegal register byte that is there is raised, whether or not a later byte is missing. -/
theorem step_of_firstIllegal {b : Byte} (h : firstIllegal (operandKinds (decodeOp b0)) (operandsThere s b0) = some b) :
    step s = raise .regIndexOutOfRange (zextByte b) s := by
  cases hd : decodeOperands (decodeOp b0) b0 (operandsThere s b0) with
  | instr i rest => rw [step_of_complete hrun hb hd, exec_of_firstIllegal s (decode_operandsThere hd) h]
  | rejected r => exact step_of_rejected hrun hb hd (missingByteFault_of_illegal _ h)

/-- Where none is, the first missing byte is. -/
theorem step_of_missing (h : firstIllegal (operandKinds (decodeOp b0)) (operandsThere s b0) = none)
    (hlen : (operandsThere s b0).length < (operandKinds (decodeOp b0)).length) :
    step s = raise .pcOverrun (s.pc + 1 + BitVec.ofNat 32 (operandsThere s b0).length) s := by
  obtain ⟨r, hd⟩ := decodeOperands_rejected_iff.mpr (operandKinds_length (decodeOp b0) ▸ hlen)
  exact step_of_rejected hrun hb hd (missingByteFault_of_legal _ h hlen)

end

/-- Settles O42. -/
theorem operandFaultsComeInByteOrder : Obligations.OperandFaultsComeInByteOrder := by
  rintro s b0 _ _ hrun hb rfl rfl
  refine ⟨fun k b hbyte hkind hge hbefore => ?_, fun hlen hlegal => ?_⟩
  · exact step_of_firstIllegal hrun hb (firstIllegal_eq_some (Nat.not_lt.mpr hge) k hbyte hkind
      fun j c hj hc hj' => Nat.lt_succ_of_le (hbefore j c hj hc hj'))
  · exact step_of_missing hrun hb (firstIllegal_eq_none fun j c hc hj => Nat.lt_succ_of_le (hlegal j c hc hj)) hlen

end Sys2Proof.Machine
end

section
/-! The step byte by byte: each operand byte fetched and checked in its turn (40_cycle_halt R110), which is the order of
the spec's pseudocode. -/

namespace Sys2Proof.Machine

/-- Go on with the byte at an address, or raise `PcOverrun` with it (20_memory R55). -/
def withByte (a : Addr) (s : State) (k : Byte → Result) : Result :=
  match fetchByte? s a with
  | some b => k b
  | none => raise .pcOverrun a s

/-- Go on with the operand bytes of the given kinds from an address on, each fetched and checked in its turn. -/
def withOperands (s : State) : List OperandKind → Addr → (List Byte → Result) → Result
  | [], _, k => k []
  | .regIdx :: kinds, a, k =>
    withByte a s fun b => withReg b s fun _ => withOperands s kinds (a + 1) fun bs => k (b :: bs)
  | .raw :: kinds, a, k => withByte a s fun b => withOperands s kinds (a + 1) fun bs => k (b :: bs)

/-- A byte that is there. -/
theorem withByte_of_some {s : State} {a : Addr} {b : Byte} (h : s.byteAt? a.toNat = some b) (k : Byte → Result) :
    withByte a s k = k b := by
  simp only [withByte, fetchByte?, h]

/-- A byte that is missing. -/
theorem withByte_of_none {s : State} {a : Addr} (h : s.byteAt? a.toNat = none) (k : Byte → Result) :
    withByte a s k = raise .pcOverrun a s := by
  simp only [withByte, fetchByte?, h]

/-- Ways of going on that agree on every byte. -/
theorem withByte_congr {s : State} {a : Addr} {k k' : Byte → Result} (h : ∀ b, k b = k' b) :
    withByte a s k = withByte a s k' := by
  rw [funext h]

/-- Ways of going on that agree on the register a legal byte names. -/
theorem withReg_congr {s : State} {b : Byte} {k k' : Reg → Result}
    (h : ∀ hb : b.toNat < 32, k ⟨b.toNat, hb⟩ = k' ⟨b.toNat, hb⟩) : withReg b s k = withReg b s k' := by
  by_cases hb : b.toNat < 32
  · rw [withReg_of_lt hb, withReg_of_lt hb, h hb]
  · rw [withReg_of_ge hb, withReg_of_ge hb]

/-- Fetching goes on after a byte that is there. -/
theorem fetchBytes_succ_of_some {s : State} {a : Addr} {b : Byte} (h : s.byteAt? a.toNat = some b) (n : Nat) :
    fetchBytes s a (n + 1) = b :: fetchBytes s (a + 1) n := by
  simp only [fetchBytes, fetchByte?, h]

/-- Fetching ends at a byte that is missing. -/
theorem fetchBytes_succ_of_none {s : State} {a : Addr} (h : s.byteAt? a.toNat = none) (n : Nat) :
    fetchBytes s a (n + 1) = [] := by
  simp only [fetchBytes, fetchByte?, h]

/-- A legal operand byte that is there is passed over. -/
theorem withOperands_cons_of_legal {s : State} {a : Addr} {c : Byte} {kind : OperandKind}
    (hb : s.byteAt? a.toNat = some c) (h : kind = .regIdx → c.toNat < 32) (kinds : List OperandKind)
    (k : List Byte → Result) :
    withOperands s (kind :: kinds) a k = withOperands s kinds (a + 1) fun bs => k (c :: bs) := by
  cases kind with
  | raw => rw [withOperands, withByte_of_some hb]
  | regIdx => rw [withOperands, withByte_of_some hb, withReg_of_lt (h rfl)]

/-- So is one that is not checked, whatever it is. -/
theorem withOperands_raw_of_some {s : State} {a : Addr} {c : Byte} (hb : s.byteAt? a.toNat = some c)
    (kinds : List OperandKind) (k : List Byte → Result) :
    withOperands s (.raw :: kinds) a k = withOperands s kinds (a + 1) fun bs => k (c :: bs) :=
  withOperands_cons_of_legal hb (by simp) kinds k

/-- An illegal one is raised. -/
theorem withOperands_cons_of_illegal {s : State} {a : Addr} {c : Byte} (hb : s.byteAt? a.toNat = some c)
    (h : ¬ c.toNat < 32) (kinds : List OperandKind) (k : List Byte → Result) :
    withOperands s (.regIdx :: kinds) a k = raise .regIndexOutOfRange (zextByte c) s := by
  rw [withOperands, withByte_of_some hb, withReg_of_ge h]

/-- A missing one is raised. -/
theorem withOperands_cons_of_none {s : State} {a : Addr} (hb : s.byteAt? a.toNat = none) (kind : OperandKind)
    (kinds : List OperandKind) (k : List Byte → Result) :
    withOperands s (kind :: kinds) a k = raise .pcOverrun a s := by
  cases kind <;> rw [withOperands, withByte_of_none hb]

/-- A result that raises the first illegal byte there is, else the first missing one, and else is what comes after the
operands, is the result of going through the operands byte by byte. -/
theorem eq_withOperands {s : State} {o : Result} : ∀ {kinds : List OperandKind} {a : Addr} {k : List Byte → Result},
    (∀ b, firstIllegal kinds (fetchBytes s a kinds.length) = some b → o = raise .regIndexOutOfRange (zextByte b) s) →
    (firstIllegal kinds (fetchBytes s a kinds.length) = none → (fetchBytes s a kinds.length).length < kinds.length →
      o = raise .pcOverrun (a + BitVec.ofNat 32 (fetchBytes s a kinds.length).length) s) →
    ((fetchBytes s a kinds.length).length = kinds.length → o = k (fetchBytes s a kinds.length)) →
    o = withOperands s kinds a k
  | [], _, _, _, _, hall => hall rfl
  | kind :: kinds, a, k, hillegal, hmissing, hall => by
    cases hb : s.byteAt? a.toNat with
    | none =>
      rw [List.length_cons, fetchBytes_succ_of_none hb] at hmissing
      rw [withOperands_cons_of_none hb, hmissing firstIllegal_nil (by simp)]
      simp
    | some c =>
      rw [List.length_cons, fetchBytes_succ_of_some hb] at hillegal hmissing hall
      by_cases hc : kind = .regIdx ∧ ¬ c.toNat < 32
      · obtain ⟨rfl, hge⟩ := hc
        rw [withOperands_cons_of_illegal hb hge]
        exact hillegal c (firstIllegal_cons_of_illegal hge)
      · have hlegal : kind = .regIdx → c.toNat < 32 := by simpa using hc
        rw [firstIllegal_cons_of_legal hlegal] at hillegal hmissing
        rw [withOperands_cons_of_legal hb hlegal]
        refine eq_withOperands hillegal (fun hnone hlen => ?_) fun hlen => hall (congrArg Nat.succ hlen)
        rw [addr_succ_add]
        exact hmissing hnone (Nat.succ_lt_succ hlen)

/-- Execute what was decoded. Rejected is never the case once all operand bytes are there: it answers
the state as it was. -/
def execDecoded (s : State) : Decoded → Result
  | .instr i _ => exec i s
  | .rejected _ => .next s

/-- Go through the operand bytes after an opcode byte `b0` of operation `op`, then execute the instruction. -/
def fetchThenExec (s : State) (b0 : Byte) (op : Operation) : Result :=
  withOperands s (operandKinds op) (s.pc + 1) fun bs => execDecoded s (decodeOperands op b0 bs)

/-- That is a step of a RUNNING CORE with an opcode byte at `pc` (40 R110). -/
theorem step_eq_fetchThenExec {s : State} {b0 : Byte} {op : Operation} (hrun : s.runState = .running)
    (hb : s.byteAt? s.pc.toNat = some b0) (hop : decodeOp b0 = op) : step s = fetchThenExec s b0 op := by
  subst hop
  refine eq_withOperands (fun _ => step_of_firstIllegal hrun hb) (step_of_missing hrun hb) fun hlen => ?_
  cases hd : decodeOperands (decodeOp b0) b0 (operandsThere s b0) with
  | instr i rest => rw [step_of_complete hrun hb hd, ← operandsThere, hd, execDecoded]
  | rejected r =>
    have hshort := decodeOperands_rejected_iff.mp ⟨r, hd⟩
    rw [← operandKinds_length, operandsThere, hlen] at hshort
    exact absurd hshort (Nat.lt_irrefl _)

/-- The address two on. -/
theorem addr_add_two (a : Addr) : a + 1 + 1 = a + 2 := addr_succ_add a 1

/-- The address three on. -/
theorem addr_add_three (a : Addr) : a + 2 + 1 = a + 3 := BitVec.add_assoc a 2 1

/-- The address four on. -/
theorem addr_add_four (a : Addr) : a + 3 + 1 = a + 4 := BitVec.add_assoc a 3 1

/-- The two immediate bytes as the value LOAD writes (30_encoding R89). -/
theorem zextImm_immOf (hi lo : Byte) : zextImm (immOf hi lo) = BitVec.ofNat 32 (256 * hi.toNat + lo.toNat) := by
  apply BitVec.eq_of_toNat_eq
  simp only [zextImm, BitVec.toNat_setWidth, BitVec.toNat_ofNat, immOf_toNat]

/-- Settles O22: each of LOAD's three operand bytes missing, its register byte illegal, or all there. -/
theorem loadStepIsItsRule : Obligations.LoadStepIsItsRule := by
  intro s hrun hb
  rw [step_eq_fetchThenExec (op := .load) hrun hb rfl, fetchThenExec, operandKinds]
  cases h1 : s.byteAt? (s.pc + 1).toNat with
  | none => exact withOperands_cons_of_none h1 _ _ _
  | some b1 =>
    by_cases hlegal : b1.toNat < 32
    · simp only [dif_pos hlegal]
      rw [withOperands_cons_of_legal h1 fun _ => hlegal, addr_add_two]
      cases h2 : s.byteAt? (s.pc + 2).toNat with
      | none => exact withOperands_cons_of_none h2 _ _ _
      | some hi =>
        rw [withOperands_raw_of_some h2, addr_add_three]
        cases h3 : s.byteAt? (s.pc + 3).toNat with
        | none => exact withOperands_cons_of_none h3 _ _ _
        | some lo =>
          rw [withOperands_raw_of_some h3, addr_add_four]
          simp only [← zextImm_immOf]
          exact exec_load_of_lt hlegal (immOf hi lo) s
    · simp only [dif_neg hlegal]
      exact withOperands_cons_of_illegal h1 hlegal _ _

/-- Settles O32: JMP's operand byte missing, legal or illegal. -/
theorem jmpStepIsItsRule : Obligations.JmpStepIsItsRule := by
  intro s hrun hb
  rw [step_eq_fetchThenExec (op := .jmp) hrun hb rfl, fetchThenExec, operandKinds]
  cases h1 : s.byteAt? (s.pc + 1).toNat with
  | none => exact withOperands_cons_of_none h1 _ _ _
  | some b1 =>
    by_cases hlegal : b1.toNat < 32
    · simp only [dif_pos hlegal]
      rw [withOperands_cons_of_legal h1 fun _ => hlegal]
      exact jmpSetsPcToRegister b1 s hlegal
    · simp only [dif_neg hlegal]
      exact withOperands_cons_of_illegal h1 hlegal _ _

/-- Settles O33: within the bound the bytes at `pc` lie so low that the target does not wrap. -/
theorem jmpfJumpsForward : Obligations.JmpfJumpsForward := by
  refine ⟨fun _ _ => rfl, fun s hrun hb hlen => ?_⟩
  have hpc : s.pc.toNat < 2 ^ 31 := lt_of_lt_of_le (State.byteAt_lt hb) hlen
  rw [step_eq_fetchThenExec (op := .jmpf) hrun hb rfl, fetchThenExec, operandKinds]
  cases hoff : s.byteAt? (s.pc + 1).toNat with
  | none => exact withOperands_cons_of_none hoff _ _ _
  | some off => exact ⟨_, jmpf_target_toNat hpc off, withOperands_raw_of_some hoff _ _⟩

end Sys2Proof.Machine
end

section
/-! The machine's step is the step of the spec's pseudocode (40_cycle_halt R110 and the rules it names). The pseudocode
moves `pc` with every byte it fetches; a fault does not show it, since it leaves `pc` a free value. -/

namespace Sys2Proof.Machine

/-! ## The pseudocode's fetches, at an address `pc` has moved to -/

section
variable (s : State) (a : Addr)

/-- `FetchByte()`. -/
theorem pseudoFetchByte_setPc (k : Byte → State → Result) :
    pseudoFetchByte (s.setPc a) k = withByte a s fun b => k b (s.setPc (a + 1)) := by
  by_cases hlt : a.toNat < s.progLen
  · have hb : s.byteAt? a.toNat = some (memRead s.mem a.toNat) := if_pos hlt
    rw [withByte_of_some hb]
    exact if_neg (Nat.not_le.mpr hlt)
  · have hb : s.byteAt? a.toNat = none := if_neg hlt
    rw [withByte_of_none hb]
    exact if_pos (Nat.not_lt.mp hlt)

/-- `RegIdx(b)`. -/
theorem pseudoRegIdx_setPc (b : Byte) (k : Reg → Result) : pseudoRegIdx b (s.setPc a) k = withReg b s k := by
  by_cases hb : b.toNat < 32
  · rw [withReg_of_lt hb]
    exact dif_neg (by omega)
  · rw [withReg_of_ge hb]
    exact dif_pos (by omega)

/-- A register operand. -/
theorem pseudoFetchReg_setPc (k : Reg → State → Result) :
    pseudoFetchReg (s.setPc a) k = withByte a s fun b => withReg b s fun r => k r (s.setPc (a + 1)) := by
  rw [pseudoFetchReg, pseudoFetchByte_setPc]
  exact withByte_congr fun b => pseudoRegIdx_setPc s (a + 1) b _

/-! ## Going through operands, against the pseudocode's fetches -/

variable {s a}

/-- A register operand checked as it is fetched, and again when the instruction is executed. -/
theorem withOperands_regIdx_eq {kinds : List OperandKind} {k : List Byte → Result} {k' : Reg → State → Result}
    (h : ∀ (b : Byte) (hb : b.toNat < 32),
      withOperands s kinds (a + 1) (fun bs => k (b :: bs)) = k' ⟨b.toNat, hb⟩ (s.setPc (a + 1))) :
    withOperands s (.regIdx :: kinds) a k = pseudoFetchReg (s.setPc a) k' := by
  rw [pseudoFetchReg_setPc]
  exact withByte_congr fun b => withReg_congr fun hb => h b hb

/-- An operand byte that is not checked. -/
theorem withOperands_raw_eq {kinds : List OperandKind} {k : List Byte → Result} {k' : Byte → State → Result}
    (h : ∀ b, withOperands s kinds (a + 1) (fun bs => k (b :: bs)) = k' b (s.setPc (a + 1))) :
    withOperands s (.raw :: kinds) a k = pseudoFetchByte (s.setPc a) k' := by
  rw [pseudoFetchByte_setPc]
  exact withByte_congr h

/-- `FetchA()`: three register operands (42 R140). -/
theorem withOperands_formatA_eq {k : List Byte → Result} {k' : Word → Word → Reg → State → Result}
    (h : ∀ (b1 b2 b3 : Byte) (h1 : b1.toNat < 32) (h2 : b2.toNat < 32) (h3 : b3.toNat < 32),
      k [b1, b2, b3] = k' (s.reg ⟨b1.toNat, h1⟩) (s.reg ⟨b2.toNat, h2⟩) ⟨b3.toNat, h3⟩ (s.setPc (a + 1 + 1 + 1))) :
    withOperands s [.regIdx, .regIdx, .regIdx] a k = pseudoFetchA (s.setPc a) k' := by
  exact withOperands_regIdx_eq fun b1 h1 => withOperands_regIdx_eq fun b2 h2 => withOperands_regIdx_eq fun b3 h3 =>
    h b1 b2 b3 h1 h2 h3

end

/-! ## Each instruction, against its procedure in the pseudocode -/

section
variable (s : State) (b0 : Byte)

/-- `pc` after a slot fetched byte by byte. -/
theorem pc_after_slot : s.pc + 1 + 1 + 1 + 1 = s.pc + 4 := by
  rw [addr_add_two s.pc, addr_add_three, addr_add_four]

/-- `exec_LOAD`. -/
theorem load_eq_pseudoLoad : fetchThenExec s b0 .load = pseudoLoad (s.setPc (s.pc + 1)) := by
  refine withOperands_regIdx_eq fun rd hd => withOperands_raw_eq fun hi => withOperands_raw_eq fun lo => ?_
  rw [pc_after_slot]
  exact exec_load_of_lt hd (immOf hi lo) s

/-- `exec_ADD`. -/
theorem add_eq_pseudoExact : fetchThenExec s b0 .add = pseudoExact (· + ·) (s.setPc (s.pc + 1)) := by
  refine withOperands_formatA_eq fun _ _ _ h1 h2 h3 => ?_
  rw [pc_after_slot]
  exact exec_add_of_lt s h1 h2 h3

/-- `exec_SUB`. -/
theorem sub_eq_pseudoExact : fetchThenExec s b0 .sub = pseudoExact (· - ·) (s.setPc (s.pc + 1)) := by
  refine withOperands_formatA_eq fun _ _ _ h1 h2 h3 => ?_
  rw [pc_after_slot]
  exact exec_sub_of_lt s h1 h2 h3

/-- `exec_MUL`. -/
theorem mul_eq_pseudoExact : fetchThenExec s b0 .mul = pseudoExact (· * ·) (s.setPc (s.pc + 1)) := by
  refine withOperands_formatA_eq fun _ _ _ h1 h2 h3 => ?_
  rw [pc_after_slot]
  exact exec_mul_of_lt s h1 h2 h3

/-- `exec_DIV`: the two fault checks in the pseudocode's order. -/
theorem div_eq_pseudoDiv : fetchThenExec s b0 .div = pseudoDiv s.pc (s.setPc (s.pc + 1)) := by
  refine withOperands_formatA_eq fun rs1 rs2 rd h1 h2 h3 => ?_
  rw [pc_after_slot]
  refine (exec_div_of_lt s h1 h2 h3).trans ?_
  rcases divide_cases (s.reg ⟨rs1.toNat, h1⟩) (s.reg ⟨rs2.toNat, h2⟩) with ⟨hb, ho⟩ | ⟨ha, hb, ho⟩ | ⟨hzero, hmin, ho⟩
  · rw [ho, if_pos hb]
    rfl
  · rw [ho, if_neg (by rw [hb]; decide), if_pos ⟨ha, hb⟩]
    rfl
  · rw [ho, if_neg hzero]
    exact (if_neg hmin).symm

/-- `exec_JMP`. -/
theorem jmp_eq_pseudoJmp : fetchThenExec s b0 .jmp = pseudoJmp (s.setPc (s.pc + 1)) :=
  withOperands_regIdx_eq fun rs h => jmpSetsPcToRegister rs s h

/-- `exec_JMPF`. -/
theorem jmpf_eq_pseudoJmpf : fetchThenExec s b0 .jmpf = pseudoJmpf (s.setPc (s.pc + 1)) := by
  refine withOperands_raw_eq fun off => ?_
  rw [addr_add_two]
  rfl

/-- `exec_JMPB`. -/
theorem jmpb_eq_pseudoJmpb : fetchThenExec s b0 .jmpb = pseudoJmpb s.pc (s.setPc (s.pc + 1)) := by
  refine withOperands_raw_eq fun off => ?_
  rw [addr_add_two]
  by_cases h : (s.pc + 2).toNat < off.toNat
  · exact (exec_jmpb_of_gt h).trans (if_pos h).symm
  · exact (exec_jmpb_of_le (Nat.not_lt.mp h)).trans (if_neg h).symm

/-- `exec_EQ`. -/
theorem eq_eq_pseudoEq : fetchThenExec s b0 .eq = pseudoEq (s.setPc (s.pc + 1)) := by
  refine withOperands_regIdx_eq fun rs1 h1 => withOperands_regIdx_eq fun rs2 h2 => withOperands_raw_eq fun pad => ?_
  rw [pc_after_slot]
  exact exec_eq_of_lt pad s h1 h2

/-- `exec_JEQ`. -/
theorem jeq_eq_pseudoJeq : fetchThenExec s b0 .jeq = pseudoJeq s.pc (s.setPc (s.pc + 1)) :=
  withOperands_regIdx_eq fun _ h => exec_jeq_of_lt s h

end

/-- Settles O13: the opcode byte is fetched the same way, and after it each operation is its procedure. -/
theorem stepFollowsThePseudocode : Obligations.StepFollowsThePseudocode := by
  intro s hrun
  refine Eq.trans ?_ (pseudoFetchByte_setPc s s.pc _).symm
  cases hb : s.byteAt? s.pc.toNat with
  | none => rw [withByte_of_none hb, step_of_fetchInstr_raised hrun (fetchInstr_of_none hb)]
  | some b0 =>
    rw [withByte_of_some hb, step_eq_fetchThenExec hrun hb rfl]
    cases decodeOp b0 with
    | hlt => rfl
    | igl => rfl
    | load => exact load_eq_pseudoLoad s b0
    | add => exact add_eq_pseudoExact s b0
    | sub => exact sub_eq_pseudoExact s b0
    | mul => exact mul_eq_pseudoExact s b0
    | div => exact div_eq_pseudoDiv s b0
    | jmp => exact jmp_eq_pseudoJmp s b0
    | jmpf => exact jmpf_eq_pseudoJmpf s b0
    | jmpb => exact jmpb_eq_pseudoJmpb s b0
    | eq => exact eq_eq_pseudoEq s b0
    | jeq => exact jeq_eq_pseudoJeq s b0

end Sys2Proof.Machine
end

section
/-! A step reads no program byte but those of its instruction (20_memory R60): the fetch looks at them alone, and
executing looks at none. -/

namespace Sys2Proof.Machine

/-- The same CORE with another program. -/
def State.withProgram (s : State) (m : List Host.Cell) (len : Nat) : State := { s with mem := m, progLen := len }

/-! ## Executing looks at no program byte -/

section
variable {s t : State} {m : List Host.Cell} {len : Nat}

/-- A register operand is checked without the program. -/
theorem withReg_withProgram {b : Byte} {k k' : Reg → Result}
    (hk : ∀ r, k r = .next t → k' r = .next (t.withProgram m len)) (h : withReg b s k = .next t) :
    withReg b (s.withProgram m len) k' = .next (t.withProgram m len) := by
  by_cases hb : b.toNat < 32
  · rw [withReg_of_lt hb] at h ⊢
    exact hk _ h
  · rw [withReg_of_ge hb] at h ⊢
    cases h
    rfl

/-- So are the operands of format A, and their values read. -/
theorem withOperandsA_withProgram {rs1 rs2 rd : Byte} {k k' : Word → Word → Reg → Result}
    (hk : ∀ a b d, k a b d = .next t → k' a b d = .next (t.withProgram m len))
    (h : withOperandsA rs1 rs2 rd s k = .next t) :
    withOperandsA rs1 rs2 rd (s.withProgram m len) k' = .next (t.withProgram m len) :=
  withReg_withProgram (fun _ => withReg_withProgram fun _ => withReg_withProgram fun _ => hk _ _ _) h

/-- An exact result is stored without the program. -/
theorem storeExact_withProgram {n : Int} {d : Reg} (h : storeExact params n d s = .next t) :
    storeExact params n d (s.withProgram m len) = .next (t.withProgram m len) := by
  cases h
  rfl

/-- So is a division. -/
theorem storeDivision_withProgram {o : DivOutcome} {d : Reg} (h : storeDivision o d s = .next t) :
    storeDivision o d (s.withProgram m len) = .next (t.withProgram m len) := by
  cases o <;> cases h <;> rfl

/-- Executing an instruction under another program does the same to the rest of the state. -/
theorem exec_withProgram {i : Instr} (h : exec i s = .next t) :
    exec i (s.withProgram m len) = .next (t.withProgram m len) := by
  cases i with
  | hlt => cases h; rfl
  | igl op => cases h; rfl
  | load rd imm => exact withReg_withProgram (fun _ h => by cases h; rfl) h
  | add rs1 rs2 rd =>
    simp only [exec, execAdd, addWith] at h ⊢
    exact withOperandsA_withProgram (fun _ _ _ => storeExact_withProgram) h
  | sub rs1 rs2 rd =>
    simp only [exec, execSub, subWith] at h ⊢
    exact withOperandsA_withProgram (fun _ _ _ => storeExact_withProgram) h
  | mul rs1 rs2 rd =>
    simp only [exec, execMul, mulWith] at h ⊢
    exact withOperandsA_withProgram (fun _ _ _ => storeExact_withProgram) h
  | div rs1 rs2 rd =>
    simp only [exec, execDiv, divWith] at h ⊢
    exact withOperandsA_withProgram (fun _ _ _ => storeDivision_withProgram) h
  | jmp rs => exact withReg_withProgram (fun _ h => by cases h; rfl) h
  | jmpf off => cases h; rfl
  | jmpb off =>
    simp only [exec, execJmpb, jmpbWith] at h ⊢
    split at h
    · next c => cases h; exact if_pos c
    · next c => cases h; exact if_neg c
  | eq rs1 rs2 pad => exact withReg_withProgram (fun _ => withReg_withProgram fun _ h => by cases h; rfl) h
  | jeq rs =>
    refine withReg_withProgram (fun r h => ?_) h
    split at h
    · next c => cases h; exact if_pos c
    · next c => cases h; exact if_neg c

end

/-! ## The fetch looks at the instruction's bytes alone -/

/-- States that agree on the bytes asked for fetch the same bytes. -/
theorem fetchBytes_congr {s s' : State} : ∀ {n : Nat} {a : Addr},
    (∀ k < n, fetchByte? s' (a + BitVec.ofNat 32 k) = fetchByte? s (a + BitVec.ofNat 32 k)) →
    fetchBytes s' a n = fetchBytes s a n
  | 0, _, _ => rfl
  | n + 1, a, h => by
    have hfirst : fetchByte? s' a = fetchByte? s a := by simpa using h 0 n.succ_pos
    have hrest : fetchBytes s' (a + 1) n = fetchBytes s (a + 1) n := by
      refine fetchBytes_congr fun k hk => ?_
      rw [addr_succ_add]
      exact h (k + 1) (Nat.succ_lt_succ hk)
    simp only [fetchBytes, hfirst, hrest]

/-- States that agree on the opcode byte and on the bytes it calls for fetch the same bytes of an instruction. -/
theorem instrBytes_congr {s s' : State} {a : Addr} (hop : fetchByte? s' a = fetchByte? s a)
    (h : ∀ (b0 : Byte) (k : Nat), fetchByte? s a = some b0 → k < bytesFetched (decodeOp b0) →
      fetchByte? s' (a + BitVec.ofNat 32 k) = fetchByte? s (a + BitVec.ofNat 32 k)) :
    instrBytes s' a = instrBytes s a := by
  cases hb : fetchByte? s a with
  | none => simp only [instrBytes, hop, hb]
  | some b0 =>
    have hrest : fetchBytes s' (a + 1) (bytesFetched (decodeOp b0) - 1) =
        fetchBytes s (a + 1) (bytesFetched (decodeOp b0) - 1) := by
      refine fetchBytes_congr fun k hk => ?_
      rw [addr_succ_add]
      exact h b0 (k + 1) hb (by omega)
    simp only [instrBytes, hop, hb, hrest]

/-- The instruction fetched, or the fault of the fetch, is told by those bytes. -/
theorem fetchInstr_congr {s s' : State} (hpc : s'.pc = s.pc) (h : instrBytes s' s.pc = instrBytes s s.pc) :
    fetchInstr s' = fetchInstr s := by
  simp only [fetchInstr, hpc, h]

/-- Settles O49: the same instruction is fetched, or the same fault raised, and neither looks at the program again. -/
theorem stepReadsOnlyItsOwnBytes : Obligations.StepReadsOnlyItsOwnBytes := by
  rintro s _ t m len hrun rfl hop hbytes h
  have hfetch : fetchInstr (s.withProgram m len) = fetchInstr s := fetchInstr_congr rfl (instrBytes_congr hop hbytes)
  rcases step_running hrun with ⟨i, hi, hs⟩ | ⟨k, info, hf, hs⟩
  · have hstep := step_of_fetchInstr_instr (s := s.withProgram m len) hrun (hfetch.trans hi)
    exact hstep.trans (exec_withProgram (hs.symm.trans h))
  · cases hs.symm.trans h
    exact step_of_fetchInstr_raised (s := s.withProgram m len) hrun (hfetch.trans hf)

end Sys2Proof.Machine
end
